-- ==== Sys2Proof/Word.lean ====
section
/-! DEFINITION. The widths the spec fixes: bytes, 32-bit words (instructions, FPCR, FPSR) and 64-bit addresses. -/

namespace Sys2Proof

/-- One 8-bit byte of the instruction memory (20_memory.md R46). -/
abbrev Byte := BitVec 8

/-- A 32-bit value: an instruction word (30_encoding.md R57), FPCR (10_state.md R33) or FPSR (R36). -/
abbrev Word := BitVec 32

/-- A 64-bit byte address; the program counter holds one (10_state.md R38). -/
abbrev Addr := BitVec 64

end Sys2Proof
end

