-- ==== Sys2Proof/Syntax.lean ====
section
/-! DEFINITION. The instruction set: one instruction, FMAXNMP (00_scope.md R1), and its assembler line (30_encoding.md R70). -/

namespace Sys2Proof

/-- The number of a scalable vector register, Z0 to Z31 (10_state.md R25). -/
abbrev ZReg := Fin 32

/-- The number of a scalable predicate register, P0 to P15 (10_state.md R29). -/
abbrev PReg := Fin 16

/-- The values of field `size`, with the `<T>` table's names (30_encoding.md R60, R71). -/
inductive Size where
  /-- 00, RESERVED: the decode pseudocode makes it UNDEFINED (R67, 90_conflicts.md C1). -/
  | reserved
  /-- 01, H: 16-bit elements, half precision. -/
  | h
  /-- 10, S: 32-bit elements, single precision. -/
  | s
  /-- 11, D: 64-bit elements, double precision. -/
  | d
deriving DecidableEq, Repr

/-- A floating-point format: half, single or double precision (41_fpmaxnum_numerics.md R91, R96). -/
inductive FpFormat where
  | half
  | single
  | double
deriving DecidableEq, Repr

/-- The instructions, one constructor for each row of the opcode table. -/
inductive Instr where
  /-- `FMAXNMP <Zdn>.<T>, <Pg>/M, <Zdn>.<T>, <Zm>.<T>` (30_encoding.md R70), its fields in the order of the word. -/
  | fmaxnmp (size : Size) (pg : PReg) (zm : ZReg) (zdn : ZReg)
deriving DecidableEq, Repr

/-- An FMAXNMP assembler line as it is written, every operand on its own (30_encoding.md R70, R72):
`FMAXNMP <zdn>.<t>, <pg>/M, <zdn2>.<t2>, <zm>.<t3>`. -/
structure AsmLine where
  zdn : ZReg
  t : Size
  pg : PReg
  zdn2 : ZReg
  t2 : Size
  zm : ZReg
  t3 : Size
deriving DecidableEq, Repr

/-- What 40_fmaxnmp.md R89 says of a MOVPRFX just before an FMAXNMP: whether it is predicated, and its destination. The spec gives
MOVPRFX no encoding and no operation, so it is no instruction here: its word is refused (30_encoding.md R68, R69; log 13). -/
structure Movprfx where
  predicated : Bool
  zd : ZReg
deriving DecidableEq, Repr

end Sys2Proof
end

