-- ==== Sys2Proof/WellFormed.lean ====
section
/-! DEFINITION. Which instructions and which assembler lines the spec admits. -/

namespace Sys2Proof

/-- An instruction the encoding can express and the assembler can write: a size with a `<T>` letter (30_encoding.md
R60, R71) and a governing predicate among P0 to P7 (R61, R72). Every pair of vector registers is legal, equal ones too (R63). -/
def Instr.wellFormed : Instr → Bool
  | .fmaxnmp size pg _ _ => size != .reserved && decide (pg.val < 8)

/-- A line the assembler accepts (30_encoding.md R72): the two `<Zdn>` name one register, the three `<T>` are one letter,
and the instruction it spells is well formed. -/
def AsmLine.wellFormed (a : AsmLine) : Bool :=
  a.zdn == a.zdn2 && a.t == a.t2 && a.t == a.t3 && (Instr.fmaxnmp a.t a.pg a.zm a.zdn).wellFormed

end Sys2Proof
end

