-- ==== Sys2Proof/Decode.lean ====
section
/-! DEFINITION. Decoding (30_encoding.md R57 to R67) and, after it, the encoder and the assembler (R70 to R72). -/

namespace Sys2Proof

/-- Why bytes are no instruction of this spec. -/
inductive DecodeReject where
  /-- The word does not have the FMAXNMP fixed bits (30_encoding.md R68). -/
  | notInSpec (w : Word)
  /-- Fewer than the four bytes of a word (30_encoding.md R57). -/
  | truncated
deriving DecidableEq, Repr

/-- The ones of this mask are the 17 fixed bits, 31:24 and 21:13 (30_encoding.md R59). -/
def fixedMask : Word := 0xFF3FE000#32

/-- The fixed bits' value (30_encoding.md R59). -/
def fixedMatch : Word := 0x64148000#32

/-- The size that field `size` spells (30_encoding.md R60). -/
def Size.ofBits (b : BitVec 2) : Size :=
  if b = 0b00#2 then .reserved else if b = 0b01#2 then .h else if b = 0b10#2 then .s else .d

/-- `g = UInt(Pg)`, 0 to 7 (30_encoding.md R61). -/
def predOfField (b : BitVec 3) : PReg := ⟨b.toNat, Nat.lt_of_lt_of_le b.isLt (by decide)⟩

/-- `UInt` of a 5-bit vector-register field, 0 to 31 (30_encoding.md R62, R63). -/
def vectorOfField (b : BitVec 5) : ZReg := ⟨b.toNat, b.isLt⟩

/-- The instruction of a 32-bit word, or its rejection by name (30_encoding.md R66).
Two lines of R66 stand elsewhere: `have_sve2` and `size == '00'` make the INSTRUCTION undefined (40_fmaxnmp.md R75, R76),
so a word with the fixed bits and size 00 decodes to the instruction with size `reserved`, and its meaning faults. -/
def decode (w : Word) : Except DecodeReject Instr :=
  if w &&& fixedMask = fixedMatch then
    .ok (.fmaxnmp (Size.ofBits (w.extractLsb' 22 2)) (predOfField (w.extractLsb' 10 3))
      (vectorOfField (w.extractLsb' 5 5)) (vectorOfField (w.extractLsb' 0 5)))
  else .error (.notInSpec w)

/-- Four bytes as a word, the byte of the lowest address in bits 7:0 (20_memory.md R48). -/
def wordOfBytes (b0 b1 b2 b3 : Byte) : Word :=
  (b3.setWidth 32 <<< 24) ||| (b2.setWidth 32 <<< 16) ||| (b1.setWidth 32 <<< 8) ||| b0.setWidth 32

/-- The four bytes of a word in the order of their addresses (20_memory.md R48). -/
def bytesOfWord (w : Word) : List Byte :=
  [w.extractLsb' 0 8, w.extractLsb' 8 8, w.extractLsb' 16 8, w.extractLsb' 24 8]

/-- The instruction at the front of a byte sequence, and the bytes after it; every instruction is four bytes (30_encoding.md R57). -/
def decodeBytes : List Byte → Except DecodeReject (Instr × List Byte)
  | b0 :: b1 :: b2 :: b3 :: rest => (decode (wordOfBytes b0 b1 b2 b3)).map fun i => (i, rest)
  | _ => .error .truncated

/-- The decoder on a word numbered as spec/opcode_table.json numbers it: the low `nbits` bits of `w`, the bits above them 0,
laid out as the hardware stores them. -/
def decodeTableWord (nbits w : Nat) : Option Instr :=
  match decodeBytes (bytesOfWord (BitVec.ofNat 32 (w % 2 ^ nbits))) with
  | .ok (i, _) => some i
  | .error _ => none

/-- The value of field `size` (30_encoding.md R60). -/
def Size.bits : Size → BitVec 2
  | .reserved => 0b00#2
  | .h => 0b01#2
  | .s => 0b10#2
  | .d => 0b11#2

/-- The word of an instruction (30_encoding.md R58, R59): the fixed bits, and in their boxes size 23:22, Pg 12:10, Zm 9:5 and
Zdn 4:0. -/
def encode : Instr → Word
  | .fmaxnmp size pg zm zdn =>
    fixedMatch ||| (size.bits.setWidth 32 <<< 22) ||| ((BitVec.ofNat 3 pg.val).setWidth 32 <<< 10)
      ||| ((BitVec.ofNat 5 zm.val).setWidth 32 <<< 5) ||| (BitVec.ofNat 5 zdn.val).setWidth 32

/-- The instruction an assembler line spells, when the assembler accepts the line (30_encoding.md R72). -/
def AsmLine.assemble (a : AsmLine) : Option Instr :=
  if a.wellFormed then some (.fmaxnmp a.t a.pg a.zm a.zdn) else none

/-- The line a disassembler prints for an instruction (30_encoding.md R72). -/
def Instr.disassemble : Instr → AsmLine
  | .fmaxnmp size pg zm zdn => { zdn := zdn, t := size, pg := pg, zdn2 := zdn, t2 := size, zm := zm, t3 := size }

/-- The three requirements on a MOVPRFX immediately before the instruction (40_fmaxnmp.md R89, 70_reset_and_hazards.md R135):
unpredicated, the same destination register, and that register no other source. Where one fails the pair is unpredictable and has no
meaning; the decoding of the FMAXNMP word does not depend on any of this (30_encoding.md R69). -/
def Instr.admitsMovprfx : Instr → Movprfx → Bool
  | .fmaxnmp _ _ zm zdn, m => !m.predicated && m.zd == zdn && zdn != zm

/-- The letter of a size (30_encoding.md R71); the reserved size has none. -/
def Size.letter : Size → String
  | .reserved => "RESERVED"
  | .h => "H"
  | .s => "S"
  | .d => "D"

/-- The text of a line (30_encoding.md R70, R72), register numbers in decimal. -/
def AsmLine.text (a : AsmLine) : String :=
  "FMAXNMP Z" ++ toString a.zdn.val ++ "." ++ a.t.letter ++ ", P" ++ toString a.pg.val ++ "/M, Z" ++ toString a.zdn2.val
    ++ "." ++ a.t2.letter ++ ", Z" ++ toString a.zm.val ++ "." ++ a.t3.letter

end Sys2Proof
end

