-- ==== Sys2Proof/Config.lean ====
section
/-! DEFINITION. The parameters of the machine (00_scope.md R8 to R13) and the free values of the model.
They are constant over a run; State carries one `Config` that no step changes (log 2). -/

namespace Sys2Proof

/-- Which function stands for the source's `FPMaxNum` (00_scope.md R12, decision D13).
A name, not a function, because State is plain data; `Machine.fpMaxNumOf` says what each name means (log 4). -/
inductive FpMaxNumName where
  /-- The reference function of 41_fpmaxnum_numerics.md Part B (R96 to R112), the spec's default. -/
  | reference
  /-- Any function Part A allows (R91 to R95, R112): what Part A leaves open is a free value. -/
  | partA
deriving DecidableEq, Repr

/-- The parameters of the step relation: VL (R8), have_sve2 (R10), sve_enabled (R11), fp_maxnum (R12) and
halt_addr (R13). `prog`, the sixth, is the field `prog` of State. -/
structure Config where
  /-- VL in units of 128 bits, less one: the 16 values of R8 and no other. -/
  vq : Fin 16
  haveSve2 : Bool
  sveEnabled : Bool
  haltAddr : Addr
  fp : FpMaxNumName
deriving DecidableEq, Repr

/-- The vector length in bits (R8): 128, 256, ..., 2048. -/
def Config.vl (c : Config) : Nat := 128 * (c.vq.val + 1)

/-- The predicate length in bits (R9): one bit for each byte of vector. -/
def Config.pl (c : Config) : Nat := c.vl / 8

/-- FREE VALUE (log 4). The bits of an FPMaxNum result that Part A leaves open, as a function of what R95 lets
them depend on: the two operands and the FPCR value. No body, so no proof can know one. -/
opaque Config.freeMaxBits : (n : Nat) → BitVec n → BitVec n → Word → BitVec n

/-- FREE VALUE (log 4). Whether a call signals Invalid Operation where Part A leaves it open (R112). -/
opaque Config.freeMaxIoc : (n : Nat) → BitVec n → BitVec n → Word → Bool

/-- FREE VALUE (log 4). Whether a call signals Input Denormal, which Part A leaves open (R112). -/
opaque Config.freeMaxIdc : (n : Nat) → BitVec n → BitVec n → Word → Bool

end Sys2Proof
end

