-- ==== Sys2Proof/Machine/State.lean ====
section
/-! DEFINITION. The state (10_state.md R43), the reasons a step stops (60_exceptions.md R113), the launch and the reset. -/

namespace Sys2Proof.Machine

/-- The faults (60_exceptions.md R113): the real hardware would take a synchronous exception here. Terminal by decision D8,
which is safe: nothing can be proved of what a handler would do. Each records what R120 says. -/
inductive Fault where
  /-- UNDEFINED (R114). Raised by FMAXNMP when have_sve2 is false or its size is reserved (40_fmaxnmp.md R75, R76). Safe. -/
  | undefined (pc : Addr) (w : Word)
  /-- CheckSVEEnabled does not return (R115). Raised by FMAXNMP when sve_enabled is false (40_fmaxnmp.md R78). Safe. -/
  | sveAccessTrap (pc : Addr)
  /-- The pc is not a multiple of 4 (R116). Raised by the fetch. Safe. -/
  | pcAlignment (pc : Addr)
  /-- A byte of the word is undefined in prog (R117). Raised by the fetch. Safe. -/
  | fetchFault (pc : Addr)
deriving DecidableEq, Repr

/-- The refusals: the spec gives no meaning, so nothing is claimed. -/
inductive Refusal where
  /-- NotInSpec (60_exceptions.md R118). Raised by the decoder for a word without the FMAXNMP fixed bits (30_encoding.md R68), and
  by FMAXNMP when an FPCR trap-enable bit is set (10_state.md R34, R121). Safe. -/
  | notInSpec (pc : Addr) (w : Word)
  /-- The run has ended (70_reset_and_hazards.md R143): pc is halt_addr, and control passes to code outside the spec (R144).
  Raised by the step before the fetch; R139's verdict `Ended`, which the host's outcomes have no other place for (log 6). Safe. -/
  | ended (pc : Addr)
  /-- An instruction without a meaning yet. Raised by exec's refused arms; this model has none. Safe. -/
  | notModelled (mnemonic : String)
deriving DecidableEq, Repr

/-- What the field `fault` records (10_state.md R42): a fault or a refusal (60_exceptions.md R119, 70_reset_and_hazards.md R141). -/
inductive Stop where
  | fault (f : Fault)
  | refusal (r : Refusal)
deriving DecidableEq, Repr

/-- The whole state (10_state.md R43). A Z register is the low VL bits of a 2048-bit value and a P register the low PL bits of
a 256-bit value; the bits above are zero in every state the registers' writes produce (log 3). -/
structure State where
  /-- The parameters, which no step changes (00_scope.md R8 to R13; log 2). -/
  cfg : Config
  /-- Z[0] to Z[31] (R25). -/
  z : Vector (BitVec 2048) 32
  /-- P[0] to P[15] (R29). -/
  p : Vector (BitVec 256) 16
  /-- The floating-point control register (R33). -/
  fpcr : Word
  /-- The floating-point status register (R36). -/
  fpsr : Word
  /-- The program counter (R38). -/
  pc : Addr
  /-- The stop that ended the run, if one did (R42). -/
  fault : Option Stop
  /-- The instruction memory: (address, byte) pairs, addresses strictly rising; an address not listed is one where prog is
  undefined (20_memory.md R46, R47; log 5). -/
  prog : List Host.Cell
deriving DecidableEq, Repr

/-- A launch state (70_reset_and_hazards.md R132, R133): the host gives every register a value, and no stop is recorded (L5). -/
def State.launch (cfg : Config) (z : Vector (BitVec 2048) 32) (p : Vector (BitVec 256) 16) (fpcr fpsr : Word) (pc : Addr)
    (prog : List Host.Cell) : State :=
  { cfg := cfg, z := z, p := p, fpcr := fpcr, fpsr := fpsr, pc := pc, fault := none, prog := prog }

/-- The parameters of State.reset (DESIGN CHOICE, log 2): VL = 128, SVE2 present and enabled, the reference FPMaxNum (R12),
and a halt_addr that is no multiple of 4, so that no aligned pc is at it (D12). -/
def resetConfig : Config :=
  { vq := 0, haveSve2 := true, sveEnabled := true, haltAddr := 0xFFFFFFFFFFFFFFFF#64, fp := .reference }

/-- The state after reset. The spec gives no register a reset value (10_state.md R44); the zeros are this model's
(DESIGN CHOICE, log 1) and no statement rests on them. `fault` is empty (R133 L5) and nothing is placed in prog. -/
def State.reset : State :=
  State.launch resetConfig (Vector.replicate 32 0#2048) (Vector.replicate 16 0#256) 0#32 0#32 0#64 []

end Sys2Proof.Machine
end

