-- ==== Sys2Proof/Machine/Operands.lean ====
section
/-! DEFINITION. Element sizes and formats, the element views of a vector and of a predicate, and the pair an element takes
(00_scope.md R18, R19; 30_encoding.md R60; 40_fmaxnmp.md R80; 41_fpmaxnum_numerics.md R96). -/

namespace Sys2Proof

/-- `N`, the width of a format (41_fpmaxnum_numerics.md R96). -/
def FpFormat.width : FpFormat → Nat
  | .half => 16
  | .single => 32
  | .double => 64

/-- `E`, the width of the exponent field (R96). -/
def FpFormat.expBits : FpFormat → Nat
  | .half => 5
  | .single => 8
  | .double => 11

/-- `F`, the width of the fraction field (R96). -/
def FpFormat.fracBits : FpFormat → Nat
  | .half => 10
  | .single => 23
  | .double => 52

/-- The exponent bias (R96). -/
def FpFormat.bias : FpFormat → Nat
  | .half => 15
  | .single => 127
  | .double => 1023

/-- `esize = 8 << UInt(size)` (30_encoding.md R60, R65). -/
def Size.esize (sz : Size) : Nat := 8 <<< sz.bits.toNat

/-- The format of the elements a size selects (41_fpmaxnum_numerics.md R91); the reserved size selects none. -/
def Size.format : Size → Option FpFormat
  | .reserved => none
  | .h => some .half
  | .s => some .single
  | .d => some .double

end Sys2Proof

namespace Sys2Proof.Machine

/-- `Elem[vector, e, size]`, read: bits (e+1)*size-1 : e*size (00_scope.md R18). -/
def elem {n : Nat} (v : BitVec n) (e size : Nat) : BitVec size := v.extractLsb' (e * size) size

/-- `Elem[vector, e, size] = value`: those bits replaced, every other bit unchanged (00_scope.md R18). -/
def setElem {n size : Nat} (v : BitVec n) (e : Nat) (x : BitVec size) : BitVec n :=
  (v &&& ~~~((BitVec.allOnes size).setWidth n <<< (e * size))) ||| (x.setWidth n <<< (e * size))

/-- `ElemP[pred, e, esize]`: the single bit e * (esize DIV 8); the element's other predicate bits are ignored (00_scope.md R19). -/
def elemP {n : Nat} (pred : BitVec n) (e esize : Nat) : Bool := pred.getLsbD (e * (esize / 8))

/-- `IsEven(e)` (00_scope.md R16). -/
def isEven (e : Nat) : Bool := e % 2 == 0

/-- `elements = VL DIV esize` (40_fmaxnmp.md R79). -/
def elements (vl : Nat) (f : FpFormat) : Nat := vl / f.width

/-- `element1` and `element2` of the loop (40_fmaxnmp.md R80): for an even `e` elements e and e+1 of the first source, for an
odd one elements e-1 and e of the second. -/
def pairOperands (f : FpFormat) {n : Nat} (operand1 operand2 : BitVec n) (e : Nat) : BitVec f.width × BitVec f.width :=
  if isEven e then (elem operand1 (e + 0) f.width, elem operand1 (e + 1) f.width)
  else (elem operand2 (e - 1) f.width, elem operand2 (e + 0) f.width)

end Sys2Proof.Machine
end

