-- ==== Sys2Proof/Machine/Flags.lean ====
section
/-! DEFINITION. The floating-point control and status registers: their layouts, the controls read, the flags a call signals. -/

namespace Sys2Proof.Machine

/-- The exceptions one FPMaxNum call can signal (41_fpmaxnum_numerics.md R108): Invalid Operation and Input Denormal. -/
structure FpFlags where
  ioc : Bool
  idc : Bool
deriving DecidableEq, Repr

/-- No exception. -/
def noFlags : FpFlags := { ioc := false, idc := false }

/-- Flags collected from two calls (40_fmaxnmp.md R85: a bitwise OR). -/
def FpFlags.union (a b : FpFlags) : FpFlags := { ioc := a.ioc || b.ioc, idc := a.idc || b.idc }

/-- `flagbits`: IOC is bit 0 and IDC bit 7 of FPSR (70_reset_and_hazards.md R140, 10_state.md R36). -/
def flagBits (fl : FpFlags) : Word := (if fl.ioc then 0x01#32 else 0#32) ||| (if fl.idc then 0x80#32 else 0#32)

/-- The bits of FPCR that hold a field (10_state.md R33): 26:15 and 12:8. Every other bit is reserved and reads as zero (log 8). -/
def fpcrFields : Word := 0x07FF9F00#32

/-- The bits of FPSR that hold a field (10_state.md R36): 31:27, 7 and 4:0. Every other bit is reserved, zero. -/
def fpsrFields : Word := 0xF800009F#32

/-- FPCR.DN, default NaN (10_state.md R33). -/
def fpcrDN (fpcr : Word) : Bool := fpcr.getLsbD 25

/-- FPCR.FZ, flush-to-zero for single and double precision (10_state.md R33). -/
def fpcrFZ (fpcr : Word) : Bool := fpcr.getLsbD 24

/-- FPCR.FZ16, flush-to-zero for half precision (10_state.md R33). -/
def fpcrFZ16 (fpcr : Word) : Bool := fpcr.getLsbD 19

/-- `fz`, the flush control of a format (41_fpmaxnum_numerics.md R97). -/
def flushControl : FpFormat → Word → Bool
  | .half, fpcr => fpcrFZ16 fpcr
  | .single, fpcr => fpcrFZ fpcr
  | .double, fpcr => fpcrFZ fpcr

/-- Some trap-enable bit is set: IDE 15, IXE 12, UFE 11, OFE 10, DZE 9, IOE 8 (10_state.md R34, 70_reset_and_hazards.md R139). -/
def trapEnabled (fpcr : Word) : Bool := fpcr.getLsbD 15 || fpcr.extractLsb' 8 5 != 0#5

end Sys2Proof.Machine
end

