-- ==== Sys2Proof/Machine/FpMaxNum.lean ====
section
/-! DEFINITION. The numerics of one FPMaxNum call (41_fpmaxnum_numerics.md): the reference function of Part B (R96 to R110),
and a function that Part A alone constrains (R91 to R95, R112). -/

namespace Sys2Proof.Machine

/-- The sign bit, x[N-1] (R96). -/
def fpSign (f : FpFormat) (x : BitVec f.width) : Bool := x.getLsbD (f.width - 1)

/-- The biased exponent, x[N-2 : F] (R96). -/
def fpExp (f : FpFormat) (x : BitVec f.width) : BitVec f.expBits := x.extractLsb' f.fracBits f.expBits

/-- The fraction, x[F-1 : 0] (R96). -/
def fpFrac (f : FpFormat) (x : BitVec f.width) : BitVec f.fracBits := x.extractLsb' 0 f.fracBits

/-- `s : exp : frac` (R96). -/
def fpPack (f : FpFormat) (s : Bool) (exp : BitVec f.expBits) (frac : BitVec f.fracBits) : BitVec f.width :=
  (BitVec.ofBool s ++ exp ++ frac).setWidth f.width

/-- The classes of R97. -/
inductive FpClass where
  | zero
  | nonzero
  | infinity
  | qnan
  | snan
deriving DecidableEq, Repr

/-- `is_denormal(x)` (R97). -/
def isDenormal (f : FpFormat) (x : BitVec f.width) : Bool := fpExp f x == 0 && fpFrac f x != 0

/-- `class(N, x, fz)` (R97): under `fz` a denormal has class Zero. -/
def fpClass (f : FpFormat) (x : BitVec f.width) (fz : Bool) : FpClass :=
  if fpExp f x = 0 then
    if fpFrac f x = 0 then .zero else if fz then .zero else .nonzero
  else if fpExp f x = BitVec.allOnes f.expBits then
    if fpFrac f x = 0 then .infinity else if (fpFrac f x).getLsbD (f.fracBits - 1) then .qnan else .snan
  else .nonzero

/-- A NaN of either kind. -/
def isNaN (f : FpFormat) (x : BitVec f.width) : Bool :=
  fpExp f x == BitVec.allOnes f.expBits && fpFrac f x != 0

/-- A signalling NaN: the top fraction bit is 0 (R97). -/
def isSNaN (f : FpFormat) (x : BitVec f.width) : Bool := isNaN f x && !(fpFrac f x).getLsbD (f.fracBits - 1)

/-- A quiet NaN: the top fraction bit is 1 (R97). -/
def isQNaN (f : FpFormat) (x : BitVec f.width) : Bool := isNaN f x && (fpFrac f x).getLsbD (f.fracBits - 1)

/-- A zero of a given sign. -/
def fpZero (f : FpFormat) (s : Bool) : BitVec f.width := fpPack f s 0 0

/-- An infinity of a given sign (R106). -/
def fpInfinity (f : FpFormat) (s : Bool) : BitVec f.width := fpPack f s (BitVec.allOnes f.expBits) 0

/-- The default NaN (R103): `'0' : Ones(E) : '1' : Zeros(F-1)`. -/
def fpDefaultNaN (f : FpFormat) : BitVec f.width :=
  fpPack f false (BitVec.allOnes f.expBits) (BitVec.twoPow f.fracBits (f.fracBits - 1))

/-- `q(x)`: x with its top fraction bit set (R102, R110). -/
def fpQuiet (f : FpFormat) (x : BitVec f.width) : BitVec f.width := x ||| BitVec.twoPow f.width (f.fracBits - 1)

/-- `fl(x)`: a denormal under `fz` is the zero of its sign, any other value itself (R98, R110). -/
def fpFlush (f : FpFormat) (fz : Bool) (x : BitVec f.width) : BitVec f.width :=
  if fz && isDenormal f x then fpZero f (fpSign f x) else x

/-- `key(x)`, whose order is the order of the real values (R99). -/
def fpKey (f : FpFormat) (fz : Bool) (x : BitVec f.width) : Int :=
  if fpClass f x fz = .zero then 0
  else
    let magnitude : Int := (x.extractLsb' 0 (f.width - 1)).toNat
    if fpSign f x then -magnitude else magnitude

/-- `nan_out(N, x, quiet, dn)` (R102). -/
def nanOut (f : FpFormat) (x : BitVec f.width) (quiet dn : Bool) : BitVec f.width :=
  if dn then fpDefaultNaN f else if quiet then fpQuiet f x else x

/-- The flags of one reference call (R98, R108): `snan` when a signalling NaN is selected; IDC for a flushed denormal
operand, except in half precision. -/
def refFlags (f : FpFormat) (op1 op2 : BitVec f.width) (fz snan : Bool) : FpFlags :=
  { ioc := snan, idc := f != .half && fz && (isDenormal f op1 || isDenormal f op2) }

/-- Both operands numeric (R104 to R107): the larger, the second when they are equal; a zero result takes the AND of the signs. -/
def maxNumeric (f : FpFormat) (fz : Bool) (op1 op2 : BitVec f.width) : BitVec f.width :=
  let x := if fpKey f fz op1 > fpKey f fz op2 then op1 else op2
  if fpClass f x fz = .zero then fpZero f (fpSign f op1 && fpSign f op2) else x

/-- `fp_maxnum_ref(N, op1, op2, fpcr)` (R100). -/
def fpMaxNumRef (f : FpFormat) (op1 op2 : BitVec f.width) (fpcr : Word) : BitVec f.width × FpFlags :=
  let fz := flushControl f fpcr
  let dn := fpcrDN fpcr
  let flags := refFlags f op1 op2 fz
  let t1 := fpClass f op1 fz
  let t2 := fpClass f op2 fz
  -- a single quiet NaN is replaced by minus infinity
  let x1 := if t1 = .qnan ∧ t2 ≠ .qnan then fpInfinity f true else op1
  let x2 := if t1 ≠ .qnan ∧ t2 = .qnan then fpInfinity f true else op2
  let u1 := if t1 = .qnan ∧ t2 ≠ .qnan then .infinity else t1
  let u2 := if t1 ≠ .qnan ∧ t2 = .qnan then .infinity else t2
  -- NaN operands, R101
  if u1 = .snan then (nanOut f x1 true dn, flags true)
  else if u2 = .snan then (nanOut f x2 true dn, flags true)
  else if u1 = .qnan then (nanOut f x1 false dn, flags false)
  else if u2 = .qnan then (nanOut f x2 false dn, flags false)
  -- both numeric, R104
  else (maxNumeric f fz x1 x2, flags false)

/-- A function that Part A alone constrains (R91 to R95), as far as R112 lets a chip differ from the reference (log 4).
A signalling NaN, or two NaNs: some quiet NaN (R93). Else a denormal operand: anything, for R92 says nothing of it. Else the
larger number, the number beside a quiet NaN (R92, R94), a zero's sign being open. A signalling NaN signals Invalid Operation
(R93); every other flag is open. What is open is a free value of Config. -/
def fpMaxNumPartA (f : FpFormat) (op1 op2 : BitVec f.width) (fpcr : Word) : BitVec f.width × FpFlags :=
  let free := Config.freeMaxBits f.width op1 op2 fpcr
  let larger := (fpMaxNumRef f op1 op2 0#32).1
  let result :=
    if isSNaN f op1 || isSNaN f op2 || (isQNaN f op1 && isQNaN f op2) then
      fpQuiet f (fpPack f (fpSign f free) (BitVec.allOnes f.expBits) (fpFrac f free))
    else if isDenormal f op1 || isDenormal f op2 then free
    else if fpClass f larger false = .zero then fpZero f (fpSign f free)
    else larger
  (result, { ioc := isSNaN f op1 || isSNaN f op2 || Config.freeMaxIoc f.width op1 op2 fpcr,
             idc := Config.freeMaxIdc f.width op1 op2 fpcr })

/-- A candidate for the source's `FPMaxNum` (R12, R91): two operands of a format and the FPCR value give a result of the format
and flags, and nothing else goes in (R95). -/
abbrev FpMaxNum := (f : FpFormat) → BitVec f.width → BitVec f.width → Word → BitVec f.width × FpFlags

/-- The function a name stands for (00_scope.md R12). -/
def fpMaxNumOf : FpMaxNumName → FpMaxNum
  | .reference => fpMaxNumRef
  | .partA => fpMaxNumPartA

end Sys2Proof.Machine
end

