-- ==== Sys2Proof/Machine/Ops.lean ====
section
/-! DEFINITION. The named operations over the registers and the instruction memory, the fetch, and what a stop does. -/

namespace Sys2Proof.Machine

/-- The instruction memory (20_memory.md R46, R47). -/
abbrev Memory := List Host.Cell

/-- The canonical form: addresses strictly rising, each one a 64-bit address (log 5). -/
abbrev Memory.wf (m : Memory) : Prop := m.Pairwise (fun x y => x.1 < y.1) ∧ ∀ c ∈ m, c.1 < 2 ^ 64

/-- `prog` at one address: none where it is undefined (20_memory.md R47). -/
def readByte : Memory → Nat → Option Byte
  | [], _ => none
  | (k, b) :: rest, a => if k = a then some b else readByte rest a

/-- The memory with one byte placed (00_scope.md R21). No instruction calls it (20_memory.md R45): only the host's load does. -/
def writeByte : Memory → Nat → Byte → Memory
  | [], a, b => [(a, b)]
  | (k, v) :: rest, a, b =>
    if a < k then (a, b) :: (k, v) :: rest
    else if a = k then (a, b) :: rest
    else (k, v) :: writeByte rest a b

/-- The bytes at addr, addr+1, ..., taken mod 2^64 (00_scope.md R21, 20_memory.md R50): none if one of them is undefined. -/
def readBytes (m : Memory) (a : Addr) : Nat → Option (List Byte)
  | 0 => some []
  | n + 1 =>
    match readByte m a.toNat, readBytes m (a + 1) n with
    | some b, some bs => some (b :: bs)
    | _, _ => none

/-- Bytes placed at addr, addr+1, ... (00_scope.md R21, MemWrite). -/
def writeBytes (m : Memory) (a : Addr) : List Byte → Memory
  | [] => m
  | b :: bs => writeBytes (writeByte m a.toNat b) (a + 1) bs

/-- `MemRead(addr, 4)`, little-endian (20_memory.md R48): none if a byte is undefined. -/
def readWord (m : Memory) (a : Addr) : Option Word :=
  match readBytes m a 4 with
  | some [b0, b1, b2, b3] => some (wordOfBytes b0 b1 b2 b3)
  | _ => none

/-- The fetch (20_memory.md R50): a pc that is no multiple of 4 raises PCAlignment, an undefined byte raises FetchFault. -/
def fetch (s : State) : Except Fault Word :=
  if s.pc.toNat % 4 ≠ 0 then .error (.pcAlignment s.pc)
  else
    match readWord s.prog s.pc with
    | some w => .ok w
    | none => .error (.fetchFault s.pc)

/-- The low VL bits of a value (10_state.md R25, 00_scope.md R8). -/
def clipZ (c : Config) (v : BitVec 2048) : BitVec 2048 := (v.setWidth c.vl).setWidth 2048

/-- The low PL bits of a value (10_state.md R29, 00_scope.md R9). -/
def clipP (c : Config) (v : BitVec 256) : BitVec 256 := (v.setWidth c.pl).setWidth 256

/-- `Z[n]`, all VL bits (00_scope.md R20). -/
def State.readZ (s : State) (n : ZReg) : BitVec 2048 := clipZ s.cfg s.z[n]

/-- `Z[n] <- v`, all VL bits at once (00_scope.md R20, 40_fmaxnmp.md R82). -/
def State.writeZ (s : State) (n : ZReg) (v : BitVec 2048) : State := { s with z := s.z.set n (clipZ s.cfg v) }

/-- `P[n]`, all PL bits (00_scope.md R20). -/
def State.readP (s : State) (n : PReg) : BitVec 256 := clipP s.cfg s.p[n]

/-- FPCR as it reads: the reserved bits are zero (10_state.md R33). -/
def State.readFpcr (s : State) : Word := s.fpcr &&& fpcrFields

/-- FPSR with the flags of an instruction ORed in; no bit is cleared (10_state.md R36, 40_fmaxnmp.md R85). -/
def State.signalFlags (s : State) (fl : FpFlags) : State := { s with fpsr := s.fpsr ||| flagBits fl }

/-- `pc <- (pc + 4) mod 2^64` (10_state.md R39). -/
def State.advancePc (s : State) : State := { s with pc := s.pc + 4#64 }

/-- `raise Fault(info)` (00_scope.md R22): the step ends with the fault. This is all of taking an exception in this spec
(60_exceptions.md R119, R124, decision D8); `State.after` says what is left. There is no return (R125). -/
def raise (f : Fault) : Host.Outcome State Fault Refusal := .fault f

/-- A refusal ends the step (60_exceptions.md R118). -/
def refuse (r : Refusal) : Host.Outcome State Fault Refusal := .refused r

/-- The state a step leaves (60_exceptions.md R119, 70_reset_and_hazards.md R141): after a fault or a refusal the field `fault`
records it and nothing else changes; the end of a run records nothing, that state being the final one (R143). -/
def State.after (s : State) : Host.Outcome State Fault Refusal → State
  | .next t => t
  | .fault f => { s with fault := some (.fault f) }
  | .refused (.ended _) => s
  | .refused r => { s with fault := some (.refusal r) }

/-- A recorded stop, answered again: a state with `fault` set has no further step (60_exceptions.md R119). -/
def stopped : Stop → Host.Outcome State Fault Refusal
  | .fault f => .fault f
  | .refusal r => .refused r

/-- A word that a step places where it fetches (used by the host's load only): the word at the fetch address, a recorded stop
cleared, a misaligned pc brought to its word, a halt_addr at the pc moved away (log 9). -/
def State.placeWord (s : State) (w : Word) : State :=
  let pc := s.pc &&& 0xFFFFFFFFFFFFFFFC#64
  { s with
    pc := pc
    fault := none
    cfg := { s.cfg with haltAddr := if s.cfg.haltAddr = pc then ~~~pc else s.cfg.haltAddr }
    prog := writeBytes s.prog pc (bytesOfWord w) }

end Sys2Proof.Machine
end

