-- ==== Sys2Proof/Machine/Fmaxnmp.lean ====
section
/-! DEFINITION. The meaning of FMAXNMP (40_fmaxnmp.md). -/

namespace Sys2Proof.Machine

/-- One iteration of the loop (40_fmaxnmp.md R80), on the result so far and the flags collected: an active element makes one
call and is written, an inactive one makes none. -/
def fmaxnmpElement (fp : FpMaxNum) (f : FpFormat) (mask : BitVec 256) (operand1 operand2 : BitVec 2048) (fpcr : Word)
    (acc : BitVec 2048 × FpFlags) (e : Nat) : BitVec 2048 × FpFlags :=
  if elemP mask e f.width then
    let pair := pairOperands f operand1 operand2 e
    let call := fp f pair.1 pair.2 fpcr
    (setElem acc.1 e call.1, acc.2.union call.2)
  else acc

/-- `fmaxnmp_exec` (70_reset_and_hazards.md R140): the loop of R80 from e = 0 to elements-1, the result starting as the
first source (40_fmaxnmp.md R79, R82). -/
def fmaxnmpLoop (fp : FpMaxNum) (f : FpFormat) (vl : Nat) (mask : BitVec 256) (operand1 operand2 : BitVec 2048) (fpcr : Word) :
    BitVec 2048 × FpFlags :=
  (List.range (elements vl f)).foldl (fmaxnmpElement fp f mask operand1 operand2 fpcr) (operand1, noFlags)

/-- The loop on the operands the instruction names: P[g], Z[dn], Z[m] and FPCR as they are before it (40_fmaxnmp.md R79). -/
def fmaxnmpResult (f : FpFormat) (pg : PReg) (zm zdn : ZReg) (s : State) : BitVec 2048 × FpFlags :=
  fmaxnmpLoop (fpMaxNumOf s.cfg.fp) f s.cfg.vl (s.readP pg) (s.readZ zdn) (s.readZ zm) s.readFpcr

/-- The operation once every check has passed (70_reset_and_hazards.md R139, last line): Z[dn], FPSR and pc. -/
def fmaxnmpOperation (f : FpFormat) (pg : PReg) (zm zdn : ZReg) (s : State) : State :=
  let r := fmaxnmpResult f pg zm zdn s
  ((s.writeZ zdn r.1).signalFlags r.2).advancePc

/-- FMAXNMP. The tests in the order of 60_exceptions.md R122, (5) to (8): `HaveSVE2()` (R75), `size == '00'` (R76),
`CheckSVEEnabled()` (R78), the FPCR trap-enable bits (R121); then the operation (R80 to R88). -/
def execFmaxnmp (size : Size) (pg : PReg) (zm zdn : ZReg) (s : State) : Host.Outcome State Fault Refusal :=
  let w := encode (.fmaxnmp size pg zm zdn)
  if !s.cfg.haveSve2 then raise (.undefined s.pc w)
  else
    match size.format with
    | none => raise (.undefined s.pc w)
    | some f =>
      if !s.cfg.sveEnabled then raise (.sveAccessTrap s.pc)
      else if trapEnabled s.readFpcr then refuse (.notInSpec s.pc w)
      else .next (fmaxnmpOperation f pg zm zdn s)

end Sys2Proof.Machine
end

