-- ==== Sys2Proof/Machine/Dispatch.lean ====
section
/-! DEFINITION. The meaning of every instruction, one arm for each constructor. -/

namespace Sys2Proof.Machine

def exec (i : Instr) (s : State) : Host.Outcome State Fault Refusal :=
  match i with
  | .fmaxnmp size pg zm zdn => Sys2Proof.Machine.execFmaxnmp size pg zm zdn s

end Sys2Proof.Machine
end

