-- ==== Sys2Proof/Machine/Step.lean ====
section
/-! DEFINITION. One step (70_reset_and_hazards.md R139) and the host's load of one word. -/

namespace Sys2Proof.Machine

/-- The step, its tests in the order of 60_exceptions.md R122. A state that records a stop has no further step (R119): it answers
that stop again. At halt_addr the run has ended, before any fetch (R143). -/
def step (s : State) : Host.Outcome State Fault Refusal :=
  match s.fault with
  | some stop => stopped stop
  | none =>
    if s.pc = s.cfg.haltAddr then refuse (.ended s.pc)
    else
      match fetch s with
      | .error f => raise f
      | .ok w =>
        match decode w with
        | .error _ => refuse (.notInSpec s.pc w)
        | .ok i => exec i s

/-- The state with an instruction placed where the next step fetches: its low `nbits` bits are those of `w`, the others 0 (log 9). -/
def State.withFetchWord (s : State) (nbits w : Nat) : State := s.placeWord (BitVec.ofNat 32 (w % 2 ^ nbits))

end Sys2Proof.Machine
end

