-- ==== Sys2Proof/Machine/FpValue.lean ====
section
/-! DEFINITION. The real value of an operand (41_fpmaxnum_numerics.md R99), in which claims about a maximum are stated. The
meaning itself compares by `fpKey`, the integer test R99 calls equivalent. -/

namespace Sys2Proof.Machine

/-- The real value of a finite operand (R99), its sign times: 2^(exp - bias) * (1 + frac / 2^F) for a normal number,
2^(1 - bias) * (frac / 2^F) for a denormal or a zero. -/
def fpFinite (f : FpFormat) (x : BitVec f.width) : ℚ :=
  (if fpSign f x then -1 else 1) *
    (if fpExp f x = 0 then (2 : ℚ) ^ ((1 : ℤ) - f.bias) * ((fpFrac f x).toNat / 2 ^ f.fracBits)
     else (2 : ℚ) ^ (((fpExp f x).toNat : ℤ) - f.bias) * (1 + (fpFrac f x).toNat / 2 ^ f.fracBits))

/-- The value of a non-NaN operand in the order of R99: 0 for class Zero, beyond every finite value for an infinity.
A NaN has no value; the number here for one means nothing. -/
def fpValue (f : FpFormat) (fz : Bool) (x : BitVec f.width) : WithBot (WithTop ℚ) :=
  match fpClass f x fz with
  | .zero => ((0 : ℚ) : WithTop ℚ)
  | .infinity => if fpSign f x then ⊥ else ((⊤ : WithTop ℚ) : WithBot (WithTop ℚ))
  | .nonzero => ((fpFinite f x : ℚ) : WithTop ℚ)
  | .qnan => ⊥
  | .snan => ⊥

end Sys2Proof.Machine
end

