-- ==== Sys2Proof/Safety.lean ====
section
/-! DEFINITION. The terms claims use: launch premises, final states, the invariant, and the parts of an FMAXNMP by element. -/

namespace Sys2Proof.Machine

/-- The launch premise on FPCR (10_state.md R34): bits 15, 12, 11, 10, 9 and 8 are zero. -/
abbrev trapBitsZero (fpcr : Word) : Prop := ∀ k ∈ [15, 12, 11, 10, 9, 8], fpcr.getLsbD k = false

/-- The parameters and FPCR let an FMAXNMP execute (70_reset_and_hazards.md R133, L2 and L3). -/
abbrev State.ready (s : State) : Prop :=
  s.cfg.haveSve2 = true ∧ s.cfg.sveEnabled = true ∧ trapBitsZero s.fpcr

/-- Launch premise L4 for a program of `k` words from pc (70_reset_and_hazards.md R133): pc is a multiple of 4, prog is defined on
every byte of the program, and halt_addr is the address just after its last word. The program has a word and does not come
round to its own start (log 15). -/
abbrev State.holdsProgram (s : State) (k : Nat) : Prop :=
  s.pc.toNat % 4 = 0 ∧ 0 < k ∧ k < 2 ^ 62 ∧ (∀ j < 4 * k, readByte s.prog ((s.pc.toNat + j) % 2 ^ 64) ≠ none) ∧
    s.cfg.haltAddr = s.pc + BitVec.ofNat 64 (4 * k)

/-- The launch premises for a program of `k` words (70_reset_and_hazards.md R133): L2, L3, L4 and L5. L1 holds of every
`Config.vl` and `Config.pl`, and L6 of every State. -/
abbrev State.launchable (s : State) (k : Nat) : Prop := s.ready ∧ s.holdsProgram k ∧ s.fault = none

/-- A final state (70_reset_and_hazards.md R143): pc is halt_addr and no stop is recorded. -/
abbrev State.isFinal (s : State) : Prop := s.pc = s.cfg.haltAddr ∧ s.fault = none

/-- One step of a run that records its stops (60_exceptions.md R119, 70_reset_and_hazards.md R141). -/
def stepRecorded (s : State) : State := s.after (step s)

/-- The result element `e` is active (00_scope.md R24): bit e * (esize DIV 8) of P[g] is 1 (40_fmaxnmp.md R81). -/
def active (s : State) (f : FpFormat) (pg : PReg) (e : Nat) : Bool := (s.p[pg]).getLsbD (e * (f.width / 8))

/-- The operands of element `e`'s call, written as 40_fmaxnmp.md R81 writes them: A[e], A[e+1] of Z[dn] for an even `e`,
B[e-1], B[e] of Z[m] for an odd one. -/
def callOperands (s : State) (f : FpFormat) (zm zdn : ZReg) (e : Nat) : BitVec f.width × BitVec f.width :=
  if e % 2 = 0 then (elem (s.readZ zdn) e f.width, elem (s.readZ zdn) (e + 1) f.width)
  else (elem (s.readZ zm) (e - 1) f.width, elem (s.readZ zm) e f.width)

/-- Element `e`'s call of FPMaxNum: its result and its flags (40_fmaxnmp.md R81, R85). -/
def elementCall (s : State) (f : FpFormat) (zm zdn : ZReg) (e : Nat) : BitVec f.width × FpFlags :=
  fpMaxNumOf s.cfg.fp f (callOperands s f zm zdn e).1 (callOperands s f zm zdn e).2 s.readFpcr

/-- The invariant of the machine: prog in canonical form (log 5), no bit of a register above its length (log 3), the reserved
bits of FPCR and FPSR zero (10_state.md R33, R36), the pc a multiple of 4 (10_state.md R39). -/
structure State.Inv (s : State) : Prop where
  progWf : Memory.wf s.prog
  zClipped : ∀ n : ZReg, (s.z[n]).toNat < 2 ^ s.cfg.vl
  pClipped : ∀ n : PReg, (s.p[n]).toNat < 2 ^ s.cfg.pl
  fpcrReserved : s.fpcr &&& ~~~fpcrFields = 0#32
  fpsrReserved : s.fpsr &&& ~~~fpsrFields = 0#32
  pcAligned : s.pc.toNat % 4 = 0

end Sys2Proof.Machine
end

