-- ==== Sys2Proof/Certificates/Slice0/Obligations.lean ====
section
/-! DEFINITION. The statements for the provers. Each docstring names the rule of spec/ it formalises. -/

open Sys2Proof Sys2Proof.Machine

/-! ## Encoding -/

/-- Words written out from the encoding (30_encoding.md R58, R68; 95_test_vectors.md E1 to E3, E17, X7, X14). That a size-00 word
decodes to the instruction with the reserved size, and faults when executed, is this model's choice (log 12): R66 and X6 make it
UNDEFINED at decode. -/
def Obligations.WordsOfTheSpecDecode : Prop :=
  decode 0x64548020#32 = .ok (.fmaxnmp .h 0 1 0) ∧
  decode 0x64949FE3#32 = .ok (.fmaxnmp .s 7 31 3) ∧
  decode 0x64D49554#32 = .ok (.fmaxnmp .d 5 10 20) ∧
  decode 0x64549FFF#32 = .ok (.fmaxnmp .h 7 31 31) ∧
  decode 0x64149FFF#32 = .ok (.fmaxnmp .reserved 7 31 31) ∧
  decode 0x64558020#32 = .error (.notInSpec 0x64558020#32) ∧
  decode 0xD503201F#32 = .error (.notInSpec 0xD503201F#32)

/-- Decoding the word of an instruction gives it back, for every size (the reserved one too), every governing predicate the
field can hold and every pair of vector registers: all well-formed instructions are among these. That the reserved size decodes at
all, and faults when executed, is this model's choice (log 12), where 30_encoding.md R66 makes it UNDEFINED at decode. -/
def Obligations.DecodeOfEncodeIsTheInstruction : Prop :=
  ∀ (size : Size) (pg : PReg) (zm zdn : ZReg), pg.val < 8 →
    decode (encode (.fmaxnmp size pg zm zdn)) = .ok (.fmaxnmp size pg zm zdn)

/-- Encoding what a word decodes to gives the word: no two words mean one instruction and no bit is dropped. Words of size 00 are
among those that decode by this model's choice (log 12). -/
def Obligations.EncodeOfDecodeIsTheWord : Prop :=
  ∀ (w : Word) (i : Instr), decode w = .ok i → encode i = w

/-- 30_encoding.md R59: a word has the fixed bits exactly when its bits under the mask are the match value; the mask has ones at
31:24 and 21:13. That exactly those words decode, those of size 00 among them, is this model's choice (log 12): R66 makes the latter
UNDEFINED at decode, and here the instruction they decode to faults. -/
def Obligations.FixedBitsDecideWhatDecodes : Prop :=
  (∀ w : Word, (w &&& 0xFF3FE000#32 = 0x64148000#32) ↔
    (w.extractLsb' 24 8 = 0b01100100#8 ∧ w.extractLsb' 13 9 = 0b010100100#9)) ∧
  (∀ k < 32, (0xFF3FE000#32).getLsbD k = true ↔ (24 ≤ k ∨ (13 ≤ k ∧ k ≤ 21))) ∧
  (∀ w : Word, (∃ i, decode w = .ok i) ↔ w &&& 0xFF3FE000#32 = 0x64148000#32)

/-- The fields of a decoded word are unsigned slices of it, and the element size is 8 << UInt(size) (30_encoding.md R60 to R64). -/
def Obligations.FieldsAreUnsignedSlices : Prop :=
  ∀ (w : Word) (size : Size) (pg : PReg) (zm zdn : ZReg), decode w = .ok (.fmaxnmp size pg zm zdn) →
    size.bits = w.extractLsb' 22 2 ∧ pg.val = (w.extractLsb' 10 3).toNat ∧ zm.val = (w.extractLsb' 5 5).toNat ∧
    zdn.val = (w.extractLsb' 0 5).toNat ∧ size.esize = 8 * 2 ^ (w.extractLsb' 22 2).toNat ∧
    (∀ f, size.format = some f → f.width = size.esize)

/-- The word an assembler line stands for, as the sum 30_encoding.md gives after R72. -/
def Obligations.EncodedWordIsTheSumOfItsFields : Prop :=
  ∀ (size : Size) (pg : PReg) (zm zdn : ZReg), pg.val < 8 →
    (encode (.fmaxnmp size pg zm zdn)).toNat =
      0x64148000 + size.bits.toNat * 2 ^ 22 + pg.val * 2 ^ 10 + zm.val * 2 ^ 5 + zdn.val

/-- 30_encoding.md R72: the assembler takes a line exactly when both `<Zdn>` name one register, the three `<T>` are one letter
(H, S or D) and the predicate is P0 to P7; what it gives disassembles to the line, a well-formed instruction's line assembles,
and the rule's example of the printed form. -/
def Obligations.AssemblerLineRules : Prop :=
  (∀ (a : AsmLine) (i : Instr), a.assemble = some i ↔
    (a.zdn = a.zdn2 ∧ a.t = a.t2 ∧ a.t = a.t3 ∧ a.t ≠ .reserved ∧ a.pg.val < 8 ∧ i = .fmaxnmp a.t a.pg a.zm a.zdn)) ∧
  (∀ (a : AsmLine) (i : Instr), a.assemble = some i → i.disassemble = a) ∧
  (∀ i : Instr, i.wellFormed = true → i.disassemble.assemble = some i) ∧
  (∀ i : Instr, decode 0x64548020#32 = .ok i → i.disassemble.text = "FMAXNMP Z0.H, P0/M, Z0.H, Z1.H")

/-- 40_fmaxnmp.md R89, 70_reset_and_hazards.md R135: which MOVPRFX may stand just before an FMAXNMP, whatever its size and
predicate; before an FMAXNMP whose two sources are one register, none. -/
def Obligations.MovprfxRequirements : Prop :=
  (∀ (size : Size) (pg : PReg) (zm zdn : ZReg) (m : Movprfx), (Instr.fmaxnmp size pg zm zdn).admitsMovprfx m = true ↔
    (m.predicated = false ∧ m.zd = zdn ∧ zdn ≠ zm)) ∧
  (∀ (size : Size) (pg : PReg) (zdn : ZReg) (m : Movprfx), (Instr.fmaxnmp size pg zdn zdn).admitsMovprfx m = false)

/-! ## Fetch and step -/

/-- 20_memory.md R48: the word at an address has the byte there in bits 7:0 and the byte three above in bits 31:24, and the
example of the rule. -/
def Obligations.FetchIsLittleEndian : Prop :=
  (∀ (m : Memory) (a : Addr) (b0 b1 b2 b3 : Byte),
    readByte m (a.toNat % 2 ^ 64) = some b0 → readByte m ((a.toNat + 1) % 2 ^ 64) = some b1 →
    readByte m ((a.toNat + 2) % 2 ^ 64) = some b2 → readByte m ((a.toNat + 3) % 2 ^ 64) = some b3 →
    ∃ w, readWord m a = some w ∧ w.extractLsb' 0 8 = b0 ∧ w.extractLsb' 8 8 = b1 ∧ w.extractLsb' 16 8 = b2 ∧
      w.extractLsb' 24 8 = b3) ∧
  (∀ (m : Memory) (a : Addr),
    readByte m (a.toNat % 2 ^ 64) = some 0x20#8 → readByte m ((a.toNat + 1) % 2 ^ 64) = some 0x80#8 →
    readByte m ((a.toNat + 2) % 2 ^ 64) = some 0x54#8 → readByte m ((a.toNat + 3) % 2 ^ 64) = some 0x64#8 →
    readWord m a = some 0x64548020#32 ∧ decode 0x64548020#32 = .ok (.fmaxnmp .h 0 1 0))

/-- 20_memory.md R50: a fetch is admitted when the pc is a multiple of 4 and the four bytes are defined, addresses mod 2^64; else
the step raises PCAlignment or FetchFault, and leaves everything but the record of the fault. -/
def Obligations.FetchAdmission : Prop :=
  ∀ s : State, s.fault = none → s.pc ≠ s.cfg.haltAddr →
    (s.pc.toNat % 4 ≠ 0 → step s = .fault (.pcAlignment s.pc) ∧
      s.after (step s) = { s with fault := some (.fault (.pcAlignment s.pc)) }) ∧
    (s.pc.toNat % 4 = 0 → (∃ k < 4, readByte s.prog ((s.pc.toNat + k) % 2 ^ 64) = none) →
      step s = .fault (.fetchFault s.pc) ∧ s.after (step s) = { s with fault := some (.fault (.fetchFault s.pc)) }) ∧
    (s.pc.toNat % 4 = 0 → (∀ k < 4, readByte s.prog ((s.pc.toNat + k) % 2 ^ 64) ≠ none) →
      ∃ w, fetch s = .ok w ∧ readWord s.prog s.pc = some w)

/-- 30_encoding.md R68, 60_exceptions.md R118: a fetched word without the fixed bits is refused with NotInSpec: neither a no-op
nor the Undefined fault. -/
def Obligations.WordsOutsideTheEncodingAreRefused : Prop :=
  ∀ (s : State) (w : Word), s.fault = none → s.pc ≠ s.cfg.haltAddr → fetch s = .ok w →
    w &&& 0xFF3FE000#32 ≠ 0x64148000#32 → step s = .refused (.notInSpec s.pc w)

/-- A step runs the decoded instruction: where the word at the pc decodes to an instruction, the step is that instruction's
meaning at that state, and nothing is added around it (70_reset_and_hazards.md R139). -/
def Obligations.StepRunsTheDecodedInstruction : Prop :=
  ∀ (s : State) (w : Word) (i : Instr), s.fault = none → s.pc ≠ s.cfg.haltAddr → fetch s = .ok w → decode w = .ok i →
    step s = exec i s

/-- 60_exceptions.md R122: the nine tests in their order, first failure wins, the word recorded being the word fetched. At
halt_addr the run has ended, whatever the other tests would say: no next state, no fault, no NotInSpec, nothing changed. -/
def Obligations.StepFollowsThePriorityOrder : Prop :=
  ∀ s : State, s.fault = none →
    (s.pc = s.cfg.haltAddr →
      (∀ t, step s ≠ .next t) ∧ (∀ f, step s ≠ .fault f) ∧ (∀ pc w, step s ≠ .refused (.notInSpec pc w)) ∧
      s.after (step s) = s ∧ s.isFinal) ∧
    (s.pc ≠ s.cfg.haltAddr → step s =
      if s.pc.toNat % 4 ≠ 0 then .fault (.pcAlignment s.pc)
      else
        match readWord s.prog s.pc with
        | none => .fault (.fetchFault s.pc)
        | some w =>
          if w &&& 0xFF3FE000#32 ≠ 0x64148000#32 then .refused (.notInSpec s.pc w)
          else if s.cfg.haveSve2 = false then .fault (.undefined s.pc w)
          else if w.extractLsb' 22 2 = 0#2 then .fault (.undefined s.pc w)
          else if s.cfg.sveEnabled = false then .fault (.sveAccessTrap s.pc)
          else if s.fpcr.getLsbD 15 = true ∨ s.fpcr.extractLsb' 8 5 ≠ 0#5 then .refused (.notInSpec s.pc w)
          else
            .next (fmaxnmpOperation
              (if w.extractLsb' 22 2 = 1#2 then .half else if w.extractLsb' 22 2 = 2#2 then .single else .double)
              (Fin.ofNat 16 (w.extractLsb' 10 3).toNat) (Fin.ofNat 32 (w.extractLsb' 5 5).toNat)
              (Fin.ofNat 32 (w.extractLsb' 0 5).toNat) s))

/-- 70_reset_and_hazards.md R143: without a recorded stop a run ends exactly at halt_addr, whatever the alignment and whatever
is stored there, and that state is the final one, unchanged. That the end is answered as the refusal `ended` is this model's
choice (log 6). -/
def Obligations.RunEndsExactlyAtHaltAddress : Prop :=
  ∀ s : State, s.fault = none →
    ((step s = .refused (.ended s.pc)) ↔ s.pc = s.cfg.haltAddr) ∧
    (s.pc = s.cfg.haltAddr → s.isFinal ∧ s.after (step s) = s)

/-- 60_exceptions.md R119: no step follows a recorded stop and none clears or changes the record; a step that ends in a fault or in a
NotInSpec refusal leaves everything but the record as it was; and no state with a record is final. -/
def Obligations.NoStepFollowsAStop : Prop :=
  (∀ s : State, s.fault ≠ none → (∀ t, step s ≠ .next t) ∧ stepRecorded s = s ∧ ¬ s.isFinal) ∧
  (∀ (s : State) (f : Fault), s.fault = none → step s = .fault f →
    stepRecorded s = { s with fault := some (.fault f) }) ∧
  (∀ (s : State) (pc : Addr) (w : Word), s.fault = none → step s = .refused (.notInSpec pc w) →
    stepRecorded s = { s with fault := some (.refusal (.notInSpec pc w)) })

/-- After a fault or a NotInSpec refusal nothing has changed but the record of it (60_exceptions.md R119), a further step answers the
same stop and leaves the record, and the state is not final. That a state with a record answers its stop again is this model's
choice (log 6): R119 says that it has no further step. -/
def Obligations.StopsArePreciseAndForGood : Prop :=
  ∀ s : State, s.fault = none →
    (∀ f, step s = .fault f →
      let t := stepRecorded s
      t = { s with fault := some (.fault f) } ∧ step t = .fault f ∧ stepRecorded t = t ∧ ¬ t.isFinal) ∧
    (∀ pc w, step s = .refused (.notInSpec pc w) →
      let t := stepRecorded s
      t = { s with fault := some (.refusal (.notInSpec pc w)) } ∧ step t = .refused (.notInSpec pc w) ∧
      stepRecorded t = t ∧ ¬ t.isFinal)

/-- The machine goes on exactly when the word at the pc is an FMAXNMP that may execute: every condition of R122 is needed and
together they are enough. -/
def Obligations.StepGoesOnExactlyOnAnExecutableFmaxnmp : Prop :=
  ∀ s : State, (∃ t, step s = .next t) ↔
    (s.fault = none ∧ s.pc ≠ s.cfg.haltAddr ∧ s.pc.toNat % 4 = 0 ∧
      (∃ w, readWord s.prog s.pc = some w ∧ w &&& 0xFF3FE000#32 = 0x64148000#32 ∧ w.extractLsb' 22 2 ≠ 0#2) ∧ s.ready)

/-- What no step changes (10_state.md R43: only Z, FPSR, pc and fault can change in a run): the parameters, P, FPCR and prog;
and a step that goes on adds 4 to the pc and records no stop. -/
def Obligations.StepChangesOnlyZFpsrAndPc : Prop :=
  ∀ s t : State, step s = .next t →
    t.cfg = s.cfg ∧ t.p = s.p ∧ t.fpcr = s.fpcr ∧ t.prog = s.prog ∧ t.fault = none ∧ t.pc = s.pc + 4#64

/-- 70_reset_and_hazards.md R143: a run from an aligned pc with an aligned halt_addr stops, within 2^62 steps: it reaches
halt_addr or stops before. (R143 says every run terminates; with a misaligned halt_addr and all of the address space filled
with FMAXNMP words none would, log 7.) -/
def Obligations.AlignedRunStopsWithin2Pow62Steps : Prop :=
  ∀ s : State, s.pc.toNat % 4 = 0 → s.cfg.haltAddr.toNat % 4 = 0 →
    ∃ k, k ≤ 2 ^ 62 ∧ ∀ t, Sys2Proof.core.run k s ≠ .next t

/-- 70_reset_and_hazards.md R143 and R145 under the launch premises of R133: a program of `k` FMAXNMP words of legal sizes takes
exactly k steps, word after word, without a stop, and the state after them, and none before, is final; the parameters, P, FPCR
and prog are what they were at the launch. -/
def Obligations.LaunchedProgramTakesOneStepForEachWord : Prop :=
  ∀ (s : State) (k : Nat), s.launchable k →
    (∀ j < k, ∀ w, readWord s.prog (s.pc + BitVec.ofNat 64 (4 * j)) = some w →
      w &&& 0xFF3FE000#32 = 0x64148000#32 ∧ w.extractLsb' 22 2 ≠ 0#2) →
    ∀ j ≤ k, ∃ t : State, Sys2Proof.core.run j s = .next t ∧ t.pc = s.pc + BitVec.ofNat 64 (4 * j) ∧ t.cfg = s.cfg ∧ t.p = s.p ∧
      t.fpcr = s.fpcr ∧ t.prog = s.prog ∧ t.fault = none ∧ (t.isFinal ↔ j = k)

/-- The host's load (log 9): the next step runs the placed word's instruction, and no other byte of prog has changed. -/
def Obligations.PlacedWordIsTheNextInstruction : Prop :=
  ∀ (s : State) (w : Word) (i : Instr), decode w = .ok i →
    step (s.withFetchWord 32 w.toNat) = exec i (s.withFetchWord 32 w.toNat) ∧
    (∀ a : Nat, (∀ k < 4, a ≠ (s.withFetchWord 32 w.toNat).pc.toNat + k) →
      readByte (s.withFetchWord 32 w.toNat).prog a = readByte s.prog a)

/-! ## FMAXNMP: where it traps -/

/-- 40_fmaxnmp.md R75: without SVE2 every FMAXNMP is UNDEFINED, before any other test, and changes no state. -/
def Obligations.UndefinedWithoutSve2 : Prop :=
  ∀ (size : Size) (pg : PReg) (zm zdn : ZReg) (s : State), s.cfg.haveSve2 = false →
    exec (.fmaxnmp size pg zm zdn) s = .fault (.undefined s.pc (encode (.fmaxnmp size pg zm zdn))) ∧
    s.after (exec (.fmaxnmp size pg zm zdn) s) =
      { s with fault := some (.fault (.undefined s.pc (encode (.fmaxnmp size pg zm zdn)))) }

/-- 40_fmaxnmp.md R76: the reserved size is UNDEFINED whether or not SVE is enabled: never an SVEAccessTrap; no state changes. -/
def Obligations.ReservedSizeIsUndefined : Prop :=
  ∀ (pg : PReg) (zm zdn : ZReg) (s : State),
    exec (.fmaxnmp .reserved pg zm zdn) s = .fault (.undefined s.pc (encode (.fmaxnmp .reserved pg zm zdn))) ∧
    s.after (exec (.fmaxnmp .reserved pg zm zdn) s) =
      { s with fault := some (.fault (.undefined s.pc (encode (.fmaxnmp .reserved pg zm zdn)))) }

/-- 40_fmaxnmp.md R78: a legal FMAXNMP with SVE disabled raises SVEAccessTrap and changes no state; with SVE enabled the check
has no effect: what follows is decided by the FPCR trap-enable bits alone. -/
def Obligations.DisabledSveTraps : Prop :=
  ∀ (size : Size) (f : FpFormat) (pg : PReg) (zm zdn : ZReg) (s : State), s.cfg.haveSve2 = true → size.format = some f →
    (s.cfg.sveEnabled = false →
      exec (.fmaxnmp size pg zm zdn) s = .fault (.sveAccessTrap s.pc) ∧
      s.after (exec (.fmaxnmp size pg zm zdn) s) = { s with fault := some (.fault (.sveAccessTrap s.pc)) }) ∧
    (s.cfg.sveEnabled = true → trapBitsZero s.fpcr →
      exec (.fmaxnmp size pg zm zdn) s = .next (fmaxnmpOperation f pg zm zdn s))

/-- 60_exceptions.md R121, 10_state.md R34, 90_conflicts.md C5: with any FPCR trap-enable bit set a legal FMAXNMP is refused with
NotInSpec, whether or not an element is active. -/
def Obligations.TrapEnabledFpcrIsRefused : Prop :=
  ∀ (size : Size) (pg : PReg) (zm zdn : ZReg) (s : State) (k : Nat), s.cfg.haveSve2 = true → s.cfg.sveEnabled = true →
    size ≠ .reserved → k ∈ [15, 12, 11, 10, 9, 8] → s.fpcr.getLsbD k = true →
    exec (.fmaxnmp size pg zm zdn) s = .refused (.notInSpec s.pc (encode (.fmaxnmp size pg zm zdn))) ∧
    s.after (exec (.fmaxnmp size pg zm zdn) s) =
      { s with fault := some (.refusal (.notInSpec s.pc (encode (.fmaxnmp size pg zm zdn)))) }

/-! ## FMAXNMP: what it does -/

/-- 40_fmaxnmp.md R81, the result and completion of FMAXNMP: for each result element e of Z[dn], with A and B the elements of
Z[dn] and Z[m] before: A[e] when e is inactive, FPMaxNum(A[e], A[e+1], FPCR) when active and even, FPMaxNum(B[e-1], B[e], FPCR)
when active and odd. Any register numbers, equal ones too. -/
def Obligations.ResultElementsInClosedForm : Prop :=
  ∀ (size : Size) (f : FpFormat) (pg : PReg) (zm zdn : ZReg) (s : State), s.ready → size.format = some f →
    ∃ t, exec (.fmaxnmp size pg zm zdn) s = .next t ∧
      ∀ e < s.cfg.vl / f.width, elem (t.readZ zdn) e f.width =
        if (s.p[pg]).getLsbD (e * (f.width / 8)) = false then elem (s.readZ zdn) e f.width
        else if e % 2 = 0 then
          (fpMaxNumOf s.cfg.fp f (elem (s.readZ zdn) e f.width) (elem (s.readZ zdn) (e + 1) f.width) s.readFpcr).1
        else (fpMaxNumOf s.cfg.fp f (elem (s.readZ zm) (e - 1) f.width) (elem (s.readZ zm) e f.width) s.readFpcr).1

/-- 40_fmaxnmp.md R88: a completed FMAXNMP sets pc to pc + 4 mod 2^64; a fault leaves pc at the FMAXNMP word. -/
def Obligations.PcAfterFmaxnmp : Prop :=
  ∀ (size : Size) (pg : PReg) (zm zdn : ZReg) (s : State),
    (s.ready → size ≠ .reserved → ∃ t, exec (.fmaxnmp size pg zm zdn) s = .next t ∧
      t.pc.toNat = (s.pc.toNat + 4) % 2 ^ 64) ∧
    (∀ r, exec (.fmaxnmp size pg zm zdn) s = .fault r → (s.after (exec (.fmaxnmp size pg zm zdn) s)).pc = s.pc)

/-- 40_fmaxnmp.md R85: FPSR after is FPSR before ORed with the flags of the calls of the active elements, IOC in bit 0 and IDC in
bit 7; inactive elements signal nothing. Under the reference numerics IOC means a signalling NaN in the pair, and IDC a
denormal in it with esize 32 or 64 and FPCR.FZ 1. -/
def Obligations.FpsrAccumulatesActiveCalls : Prop :=
  ∀ (size : Size) (f : FpFormat) (pg : PReg) (zm zdn : ZReg) (s : State), s.ready → size.format = some f →
    ∃ t, exec (.fmaxnmp size pg zm zdn) s = .next t ∧
      (∀ k, t.fpsr.getLsbD k = true ↔
        (s.fpsr.getLsbD k = true ∨
         (k = 0 ∧ ∃ e < s.cfg.vl / f.width, active s f pg e = true ∧ (elementCall s f zm zdn e).2.ioc = true) ∨
         (k = 7 ∧ ∃ e < s.cfg.vl / f.width, active s f pg e = true ∧ (elementCall s f zm zdn e).2.idc = true))) ∧
      (s.cfg.fp = .reference → ∀ e,
        ((elementCall s f zm zdn e).2.ioc = true ↔
          (isSNaN f (callOperands s f zm zdn e).1 = true ∨ isSNaN f (callOperands s f zm zdn e).2 = true)) ∧
        ((elementCall s f zm zdn e).2.idc = true ↔
          (f ≠ .half ∧ s.fpcr.getLsbD 24 = true ∧
            (isDenormal f (callOperands s f zm zdn e).1 = true ∨ isDenormal f (callOperands s f zm zdn e).2 = true))))

/-- The frame of FMAXNMP (10_state.md R27, R30, R32, R36; 40_fmaxnmp.md R84; 20_memory.md R45): every Z register but Z[dn], every
P register, FPCR, the parameters, the fault record and every byte of prog are unchanged; of FPSR only bits 0 and 7 can change and no bit
is cleared. -/
def Obligations.FmaxnmpFrame : Prop :=
  ∀ (size : Size) (pg : PReg) (zm zdn : ZReg) (s t : State), exec (.fmaxnmp size pg zm zdn) s = .next t →
    (∀ n : ZReg, n ≠ zdn → t.z[n] = s.z[n]) ∧ (∀ n : PReg, t.p[n] = s.p[n]) ∧ t.fpcr = s.fpcr ∧ t.cfg = s.cfg ∧
    t.fault = s.fault ∧ (∀ a, readByte t.prog a = readByte s.prog a) ∧
    (∀ k, k ≠ 0 → k ≠ 7 → t.fpsr.getLsbD k = s.fpsr.getLsbD k) ∧
    (∀ k, s.fpsr.getLsbD k = true → t.fpsr.getLsbD k = true)

/-- 40_fmaxnmp.md R87, all elements inactive: Z[dn] is unchanged bit for bit, FPSR is unchanged, and the pc advances; nothing else
changes. -/
def Obligations.AllInactiveChangesOnlyThePc : Prop :=
  ∀ (size : Size) (f : FpFormat) (pg : PReg) (zm zdn : ZReg) (s : State), s.ready → size.format = some f →
    (∀ e < s.cfg.vl / f.width, active s f pg e = false) →
    ∃ t, exec (.fmaxnmp size pg zm zdn) s = .next t ∧ (∀ n : ZReg, t.readZ n = s.readZ n) ∧ t.fpsr = s.fpsr ∧
      t.pc = s.pc + 4#64 ∧ t.p = s.p ∧ t.fpcr = s.fpcr ∧ t.cfg = s.cfg ∧ t.fault = s.fault ∧ t.prog = s.prog

/-- 40_fmaxnmp.md R87, `dn == m`: where active, result elements 2i and 2i+1 are both FPMaxNum(A[2i], A[2i+1], FPCR) of the old
register. -/
def Obligations.SameRegisterTwiceGivesEqualPairs : Prop :=
  ∀ (size : Size) (f : FpFormat) (pg : PReg) (zdn : ZReg) (s : State), s.ready → size.format = some f →
    ∃ t, exec (.fmaxnmp size pg zdn zdn) s = .next t ∧
      ∀ i, 2 * i + 1 < s.cfg.vl / f.width →
        let m := (fpMaxNumOf s.cfg.fp f (elem (s.readZ zdn) (2 * i) f.width) (elem (s.readZ zdn) (2 * i + 1) f.width) s.readFpcr).1
        (active s f pg (2 * i) = true → elem (t.readZ zdn) (2 * i) f.width = m) ∧
        (active s f pg (2 * i + 1) = true → elem (t.readZ zdn) (2 * i + 1) f.width = m)

/-- 40_fmaxnmp.md R83: the number of elements is exact and even, a multiple of 8, 4 or 2; no element index and no predicate
index of the loop is out of range; the smallest case has two elements. -/
def Obligations.IndicesStayInRange : Prop :=
  (∀ (c : Config) (f : FpFormat),
    elements c.vl f * f.width = c.vl ∧ elements c.vl f % 2 = 0 ∧
    elements c.vl f % (match f with | .half => 8 | .single => 4 | .double => 2) = 0 ∧
    (∀ e < elements c.vl f,
      (e % 2 = 0 → e + 1 < elements c.vl f ∧ (e + 1 + 1) * f.width ≤ c.vl) ∧
      (e % 2 = 1 → 1 ≤ e ∧ (e + 1) * f.width ≤ c.vl) ∧
      e * (f.width / 8) < c.pl)) ∧
  elements 128 .double = 2

/-- 10_state.md R30: FMAXNMP reads P[g] and writes no predicate register, and of P[g] only bits e * (esize DIV 8) matter: with
any other predicate file that agrees on those bits it does the same. -/
def Obligations.OtherPredicateBitsAreIgnored : Prop :=
  ∀ (size : Size) (f : FpFormat) (pg : PReg) (zm zdn : ZReg) (s t : State) (p' : Vector (BitVec 256) 16),
    size.format = some f →
    (∀ e < s.cfg.vl / f.width, (p'[pg]).getLsbD (e * (f.width / 8)) = (s.p[pg]).getLsbD (e * (f.width / 8))) →
    exec (.fmaxnmp size pg zm zdn) s = .next t →
    t.p = s.p ∧ exec (.fmaxnmp size pg zm zdn) { s with p := p' } = .next { t with p := p' }

/-- 40_fmaxnmp.md R84, what FMAXNMP reads: two states that agree on the parameters, P[g], Z[dn], Z[m] and FPCR get the same new
Z[dn] and OR the same flags into FPSR, whatever else differs. -/
def Obligations.ResultDependsOnlyOnTheFootprint : Prop :=
  ∀ (size : Size) (pg : PReg) (zm zdn : ZReg) (s s' t : State), s'.cfg = s.cfg → s'.p[pg] = s.p[pg] →
    s'.z[zdn] = s.z[zdn] → s'.z[zm] = s.z[zm] → s'.fpcr = s.fpcr →
    exec (.fmaxnmp size pg zm zdn) s = .next t →
    ∃ t', exec (.fmaxnmp size pg zm zdn) s' = .next t' ∧ t'.z[zdn] = t.z[zdn] ∧
      ∃ x : Word, t.fpsr = s.fpsr ||| x ∧ t'.fpsr = s'.fpsr ||| x

/-- 40_fmaxnmp.md R86: for any FPMaxNum, the loop over the elements in any order gives the same result and flags. -/
def Obligations.OrderOfElementsIsIrrelevant : Prop :=
  ∀ (fp : FpMaxNum) (f : FpFormat) (vl : Nat) (mask : BitVec 256) (operand1 operand2 : BitVec 2048) (fpcr : Word) (order : List Nat),
    order.Perm (List.range (elements vl f)) →
    order.foldl (fmaxnmpElement fp f mask operand1 operand2 fpcr) (operand1, noFlags) =
      fmaxnmpLoop fp f vl mask operand1 operand2 fpcr

/-! ## FPMaxNum -/

/-- 41_fpmaxnum_numerics.md R103: the default NaNs. -/
def Obligations.DefaultNaNValues : Prop :=
  fpDefaultNaN .half = 0x7E00#16 ∧ fpDefaultNaN .single = 0x7FC00000#32 ∧ fpDefaultNaN .double = 0x7FF8000000000000#64

/-- 41_fpmaxnum_numerics.md R110: the algorithm of R100 is the decision table, first matching row, for every pair of operands
and every FPCR; the flags are those of R108 in every row. -/
def Obligations.ReferenceFollowsTheDecisionTable : Prop :=
  ∀ (f : FpFormat) (op1 op2 : BitVec f.width) (fpcr : Word),
    let fz := flushControl f fpcr
    let dn := fpcrDN fpcr
    let fl := fpFlush f fz
    (fpMaxNumRef f op1 op2 fpcr).1 =
      (if isSNaN f op1 = true then (if dn = true then fpDefaultNaN f else fpQuiet f op1)
       else if isSNaN f op2 = true then (if dn = true then fpDefaultNaN f else fpQuiet f op2)
       else if isQNaN f op1 = true ∧ isQNaN f op2 = true then (if dn = true then fpDefaultNaN f else op1)
       else if isQNaN f op1 = true then fl op2
       else if isQNaN f op2 = true then fl op1
       else if (fl op1).extractLsb' 0 (f.width - 1) = 0 ∧ (fl op2).extractLsb' 0 (f.width - 1) = 0 then
         fpZero f (fpSign f op1 && fpSign f op2)
       else if fpValue f fz (fl op2) < fpValue f fz (fl op1) then fl op1
       else fl op2) ∧
    ((fpMaxNumRef f op1 op2 fpcr).2.ioc = true ↔ (isSNaN f op1 = true ∨ isSNaN f op2 = true)) ∧
    ((fpMaxNumRef f op1 op2 fpcr).2.idc = true ↔
      (f ≠ .half ∧ fz = true ∧ (isDenormal f op1 = true ∨ isDenormal f op2 = true)))

/-- 41_fpmaxnum_numerics.md R99: for operands that are no NaN, the integer test on `fpKey` decides the order of the real values
(`fpValue`, the rule's formulas); every finite value lies between the infinities, and both zeros have the value 0. -/
def Obligations.KeyOrderIsValueOrder : Prop :=
  ∀ (f : FpFormat) (fz : Bool),
    (∀ x y : BitVec f.width, isNaN f x = false → isNaN f y = false →
      (fpValue f fz y < fpValue f fz x ↔ fpKey f fz y < fpKey f fz x)) ∧
    (∀ x : BitVec f.width, isNaN f x = false → fpClass f x fz ≠ .infinity →
      fpValue f fz (fpInfinity f true) < fpValue f fz x ∧ fpValue f fz x < fpValue f fz (fpInfinity f false)) ∧
    (∀ s : Bool, fpValue f fz (fpZero f s) = ((0 : ℚ) : WithTop ℚ))

/-- 41_fpmaxnum_numerics.md R92 and R111 (e), for the reference function: with no NaN the result's value is the larger of the
two operands' values, denormals counting as zeros under flush-to-zero. -/
def Obligations.ReferenceGivesTheLargerValue : Prop :=
  ∀ (f : FpFormat) (op1 op2 : BitVec f.width) (fpcr : Word), isNaN f op1 = false → isNaN f op2 = false →
    fpValue f (flushControl f fpcr) (fpMaxNumRef f op1 op2 fpcr).1 =
      max (fpValue f (flushControl f fpcr) op1) (fpValue f (flushControl f fpcr) op2)

/-- 41_fpmaxnum_numerics.md R94: with one quiet NaN and one number the reference gives the number, in either position, a denormal
under flush-to-zero being delivered as the zero of its sign. -/
def Obligations.OneQuietNaNGivesTheNumber : Prop :=
  ∀ (f : FpFormat) (q x : BitVec f.width) (fpcr : Word), isQNaN f q = true → isNaN f x = false →
    (fpMaxNumRef f q x fpcr).1 = (if flushControl f fpcr = true ∧ isDenormal f x = true then fpZero f (fpSign f x) else x) ∧
    (fpMaxNumRef f x q fpcr).1 = (if flushControl f fpcr = true ∧ isDenormal f x = true then fpZero f (fpSign f x) else x)

/-- 41_fpmaxnum_numerics.md R102: the NaN a call gives for a signalling or two quiet NaNs, and that IOC does not depend on DN. -/
def Obligations.NaNResultsAndDefaultNaN : Prop :=
  ∀ (f : FpFormat) (x y : BitVec f.width) (fpcr : Word),
    (isSNaN f x = true →
      fpMaxNumRef f x y fpcr =
        (if fpcrDN fpcr = true then fpDefaultNaN f else fpQuiet f x, { ioc := true, idc := (fpMaxNumRef f x y fpcr).2.idc })) ∧
    (isSNaN f x = false → isSNaN f y = true →
      fpMaxNumRef f x y fpcr =
        (if fpcrDN fpcr = true then fpDefaultNaN f else fpQuiet f y, { ioc := true, idc := (fpMaxNumRef f x y fpcr).2.idc })) ∧
    (isQNaN f x = true → isQNaN f y = true →
      (fpMaxNumRef f x y fpcr).1 = if fpcrDN fpcr = true then fpDefaultNaN f else x)

/-- 41_fpmaxnum_numerics.md R98: under flush-to-zero a denormal operand has class Zero, value 0 and its own sign and acts as that
zero; it signals IDC in single and double precision whatever the other operand is and nothing in half; without
flush-to-zero it is an ordinary nonzero number and nothing is signalled. -/
def Obligations.FlushToZeroOfInputs : Prop :=
  ∀ (f : FpFormat) (x y : BitVec f.width) (fpcr : Word),
    (isDenormal f x = true → fpClass f x true = .zero ∧ fpValue f true x = ((0 : ℚ) : WithTop ℚ) ∧
      fpSign f (fpFlush f true x) = fpSign f x ∧ fpClass f x false = .nonzero) ∧
    ((fpMaxNumRef f x y fpcr).1 =
      (fpMaxNumRef f (fpFlush f (flushControl f fpcr) x) (fpFlush f (flushControl f fpcr) y) fpcr).1) ∧
    ((fpMaxNumRef f x y fpcr).2.idc = true ↔
      (f ≠ .half ∧ flushControl f fpcr = true ∧ (isDenormal f x = true ∨ isDenormal f y = true)))

/-- 41_fpmaxnum_numerics.md R109: the reference reads FPCR.DN and its format's flush bit (24 for single and double, 19 for half)
and nothing else of FPCR; each of these bits alone makes a difference for some operands. -/
def Obligations.OtherFpcrFieldsHaveNoEffect : Prop :=
  (∀ (f : FpFormat) (op1 op2 : BitVec f.width) (c c' : Word), c.getLsbD 25 = c'.getLsbD 25 →
    (f = .half → c.getLsbD 19 = c'.getLsbD 19) → (f ≠ .half → c.getLsbD 24 = c'.getLsbD 24) →
    fpMaxNumRef f op1 op2 c = fpMaxNumRef f op1 op2 c') ∧
  (∀ f : FpFormat,
    (∃ x y, fpMaxNumRef f x y 0#32 ≠ fpMaxNumRef f x y (BitVec.twoPow 32 25)) ∧
    (∃ x y, fpMaxNumRef f x y 0#32 ≠ fpMaxNumRef f x y (BitVec.twoPow 32 (match f with | .half => 19 | .single => 24 | .double => 24))))

/-- 41_fpmaxnum_numerics.md R111 (a) and (f): the result is a flushed operand, a quieted operand, the default NaN or +0; with no flush, no
DN and no signalling NaN it is one of the operands or, for two zeros of opposite sign, +0. -/
def Obligations.ReferenceResultIsAnOperand : Prop :=
  ∀ (f : FpFormat) (op1 op2 : BitVec f.width) (fpcr : Word),
    let r := (fpMaxNumRef f op1 op2 fpcr).1
    let fl := fpFlush f (flushControl f fpcr)
    (r = fl op1 ∨ r = fl op2 ∨ r = fpQuiet f op1 ∨ r = fpQuiet f op2 ∨ r = fpDefaultNaN f ∨ r = fpZero f false) ∧
    (flushControl f fpcr = false → fpcrDN fpcr = false → isSNaN f op1 = false → isSNaN f op2 = false →
      (r = op1 ∨ r = op2 ∨
        (r = fpZero f false ∧ fpClass f op1 false = .zero ∧ fpClass f op2 false = .zero ∧ fpSign f op1 ≠ fpSign f op2)))

/-- 41_fpmaxnum_numerics.md R111 (b): a NaN result comes only from a NaN operand, and is quiet. -/
def Obligations.NaNResultIsQuietAndHasACause : Prop :=
  ∀ (f : FpFormat) (op1 op2 : BitVec f.width) (fpcr : Word),
    (isNaN f op1 = false → isNaN f op2 = false → isNaN f (fpMaxNumRef f op1 op2 fpcr).1 = false) ∧
    (isNaN f (fpMaxNumRef f op1 op2 fpcr).1 = true → isQNaN f (fpMaxNumRef f op1 op2 fpcr).1 = true)

/-- 41_fpmaxnum_numerics.md R111 (c): an operand against itself. -/
def Obligations.OperandAgainstItself : Prop :=
  ∀ (f : FpFormat) (x : BitVec f.width) (fpcr : Word),
    (isNaN f x = false → ¬ (flushControl f fpcr = true ∧ isDenormal f x = true) → (fpMaxNumRef f x x fpcr).1 = x) ∧
    (isQNaN f x = true → (fpMaxNumRef f x x fpcr).1 = if fpcrDN fpcr = true then fpDefaultNaN f else x) ∧
    (isSNaN f x = true → (fpMaxNumRef f x x fpcr).1 = if fpcrDN fpcr = true then fpDefaultNaN f else fpQuiet f x)

/-- 41_fpmaxnum_numerics.md R111 (d): commutative, flags included, but for two different signalling or two different quiet NaNs
with DN = 0. -/
def Obligations.ReferenceIsCommutativeButForTwoNaNs : Prop :=
  ∀ (f : FpFormat) (x y : BitVec f.width) (fpcr : Word),
    ¬ (fpcrDN fpcr = false ∧ x ≠ y ∧
        ((isSNaN f x = true ∧ isSNaN f y = true) ∨ (isQNaN f x = true ∧ isQNaN f y = true))) →
    fpMaxNumRef f x y fpcr = fpMaxNumRef f y x fpcr

/-- What holds of every function Part A allows (41_fpmaxnum_numerics.md R92 to R94), whatever the free values: the larger value of two
numbers, the number beside a quiet NaN (denormals left open), a quiet NaN from a signalling NaN, with Invalid Operation, or
from two quiet NaNs. `partA` is this model's reading of what Part A leaves open (log 4). -/
def Obligations.PartAFixesNumbersAndNaNs : Prop :=
  ∀ (f : FpFormat) (op1 op2 : BitVec f.width) (fpcr : Word),
    let r := fpMaxNumPartA f op1 op2 fpcr
    (isNaN f op1 = false → isNaN f op2 = false → isDenormal f op1 = false → isDenormal f op2 = false →
      fpValue f false r.1 = max (fpValue f false op1) (fpValue f false op2) ∧ isNaN f r.1 = false) ∧
    (isQNaN f op1 = true → isNaN f op2 = false → isDenormal f op2 = false →
      fpValue f false r.1 = fpValue f false op2 ∧ isNaN f r.1 = false) ∧
    (isQNaN f op2 = true → isNaN f op1 = false → isDenormal f op1 = false →
      fpValue f false r.1 = fpValue f false op1 ∧ isNaN f r.1 = false) ∧
    ((isSNaN f op1 = true ∨ isSNaN f op2 = true) → isQNaN f r.1 = true ∧ r.2.ioc = true) ∧
    (isQNaN f op1 = true → isQNaN f op2 = true → isQNaN f r.1 = true)

/-! ## The invariant and the reset -/

/-- Every step keeps the invariant (logs 3, 5, 8; 10_state.md R33, R36, R39): prog canonical, nothing above a register's length, the
reserved bits of FPCR and FPSR zero, the pc a multiple of 4. -/
def Obligations.StepKeepsTheInvariant : Prop :=
  ∀ s t : State, s.Inv → step s = .next t → t.Inv

/-- The reset state meets the invariant. Its register values are this model's choice (log 1). -/
def Obligations.ResetMeetsTheInvariant : Prop := State.reset.Inv

/-- Of the launch premises of 70_reset_and_hazards.md R133 the reset state meets L2, L3, the aligned pc of L4, and L5; it holds no
program, so the rest of L4 fails for every length, and the first step raises FetchFault. The register values, the parameters
(halt_addr among them) and the empty prog are this model's choice (logs 1, 2, 5). -/
def Obligations.ResetIsReadyWithoutAProgram : Prop :=
  State.reset.ready ∧ State.reset.pc.toNat % 4 = 0 ∧ State.reset.fault = none ∧ (∀ k, ¬ State.reset.holdsProgram k) ∧
    step State.reset = .fault (.fetchFault State.reset.pc)
end

