-- ==== Sys2Proof/Laws/Operands.lean ====
section
/-! SUPPORT. Elements of vectors: a read after a write, and the numbers of R83. -/

namespace Sys2Proof.Machine

/-- Bit `j` of element `e` is bit e * size + j of the vector (00_scope.md R18). -/
@[simp] theorem getLsbD_elem {n : Nat} (v : BitVec n) (e size j : Nat) :
    (elem v e size).getLsbD j = (decide (j < size) && v.getLsbD (e * size + j)) := by
  simp [elem, BitVec.getLsbD_extractLsb']

/-- The bits of a vector after an element write: the element's bits are the value's, every other bit is unchanged (00_scope.md R18). -/
theorem getLsbD_setElem {n size : Nat} (v : BitVec n) (e : Nat) (x : BitVec size) (j : Nat) :
    (setElem v e x).getLsbD j =
      (decide (j < n) && if e * size ≤ j ∧ j < e * size + size then x.getLsbD (j - e * size) else v.getLsbD j) := by
  by_cases hj : j < n
  · by_cases h1 : e * size ≤ j
    · by_cases h2 : j < e * size + size
      · have h3 : j - e * size < size := by omega
        have h4 : j - e * size < n := by omega
        simp [setElem, hj, h1, h2, h3, Nat.not_lt.2 h1]
      · have h3 : ¬ j - e * size < size := by omega
        simp [setElem, hj, h1, h2, h3, BitVec.getLsbD_of_ge x _ (Nat.le_of_not_lt h3)]
    · have h3 : j < e * size := by omega
      simp [setElem, hj, h1, h3]
  · simp [hj, BitVec.getLsbD_of_ge _ _ (Nat.le_of_not_lt hj)]

/-- Reading the element just written gives the value, when the element lies inside the vector. -/
theorem elem_setElem_same {n size : Nat} (v : BitVec n) (e : Nat) (x : BitVec size) (h : (e + 1) * size ≤ n) :
    elem (setElem v e x) e size = x := by
  apply BitVec.eq_of_getLsbD_eq
  intro j hj
  have h1 : e * size + j < n := by rw [Nat.add_mul] at h; omega
  rw [getLsbD_elem, getLsbD_setElem]
  simp [hj, h1]

/-- Reading another element gives what it was. -/
theorem elem_setElem_other {n size : Nat} (v : BitVec n) {e e' : Nat} (x : BitVec size) (h : e ≠ e') :
    elem (setElem v e x) e' size = elem v e' size := by
  apply BitVec.eq_of_getLsbD_eq
  intro j hj
  have hout : ¬ (e * size ≤ e' * size + j ∧ e' * size + j < e * size + size) := by
    rcases Nat.lt_or_gt_of_ne h with h | h
    · have := Nat.mul_le_mul_right size h
      rw [Nat.succ_mul] at this
      omega
    · have := Nat.mul_le_mul_right size h
      rw [Nat.succ_mul] at this
      omega
  rw [getLsbD_elem, getLsbD_elem, getLsbD_setElem, if_neg hout]
  by_cases hn : e' * size + j < n
  · simp [hn]
  · simp [hn, BitVec.getLsbD_of_ge v _ (Nat.le_of_not_lt hn)]

end Sys2Proof.Machine
end

