-- ==== Sys2Proof/Laws/State.lean ====
section
/-! SUPPORT. What each named update of the state does to each field, so that no proof unfolds a record update. -/

namespace Sys2Proof.Machine

variable (s : State)

@[simp] theorem State.writeZ_cfg (n : ZReg) (v : BitVec 2048) : (s.writeZ n v).cfg = s.cfg := rfl
@[simp] theorem State.writeZ_z (n : ZReg) (v : BitVec 2048) : (s.writeZ n v).z = s.z.set n (clipZ s.cfg v) := rfl
@[simp] theorem State.writeZ_p (n : ZReg) (v : BitVec 2048) : (s.writeZ n v).p = s.p := rfl
@[simp] theorem State.writeZ_fpcr (n : ZReg) (v : BitVec 2048) : (s.writeZ n v).fpcr = s.fpcr := rfl
@[simp] theorem State.writeZ_fpsr (n : ZReg) (v : BitVec 2048) : (s.writeZ n v).fpsr = s.fpsr := rfl
@[simp] theorem State.writeZ_pc (n : ZReg) (v : BitVec 2048) : (s.writeZ n v).pc = s.pc := rfl
@[simp] theorem State.writeZ_fault (n : ZReg) (v : BitVec 2048) : (s.writeZ n v).fault = s.fault := rfl
@[simp] theorem State.writeZ_prog (n : ZReg) (v : BitVec 2048) : (s.writeZ n v).prog = s.prog := rfl

@[simp] theorem State.signalFlags_cfg (fl : FpFlags) : (s.signalFlags fl).cfg = s.cfg := rfl
@[simp] theorem State.signalFlags_z (fl : FpFlags) : (s.signalFlags fl).z = s.z := rfl
@[simp] theorem State.signalFlags_p (fl : FpFlags) : (s.signalFlags fl).p = s.p := rfl
@[simp] theorem State.signalFlags_fpcr (fl : FpFlags) : (s.signalFlags fl).fpcr = s.fpcr := rfl
@[simp] theorem State.signalFlags_fpsr (fl : FpFlags) : (s.signalFlags fl).fpsr = s.fpsr ||| flagBits fl := rfl
@[simp] theorem State.signalFlags_pc (fl : FpFlags) : (s.signalFlags fl).pc = s.pc := rfl
@[simp] theorem State.signalFlags_fault (fl : FpFlags) : (s.signalFlags fl).fault = s.fault := rfl
@[simp] theorem State.signalFlags_prog (fl : FpFlags) : (s.signalFlags fl).prog = s.prog := rfl

@[simp] theorem State.advancePc_cfg : s.advancePc.cfg = s.cfg := rfl
@[simp] theorem State.advancePc_z : s.advancePc.z = s.z := rfl
@[simp] theorem State.advancePc_p : s.advancePc.p = s.p := rfl
@[simp] theorem State.advancePc_fpcr : s.advancePc.fpcr = s.fpcr := rfl
@[simp] theorem State.advancePc_fpsr : s.advancePc.fpsr = s.fpsr := rfl
@[simp] theorem State.advancePc_pc : s.advancePc.pc = s.pc + 4#64 := rfl
@[simp] theorem State.advancePc_fault : s.advancePc.fault = s.fault := rfl
@[simp] theorem State.advancePc_prog : s.advancePc.prog = s.prog := rfl

@[simp] theorem State.placeWord_z (w : Word) : (s.placeWord w).z = s.z := rfl
@[simp] theorem State.placeWord_p (w : Word) : (s.placeWord w).p = s.p := rfl
@[simp] theorem State.placeWord_fpcr (w : Word) : (s.placeWord w).fpcr = s.fpcr := rfl
@[simp] theorem State.placeWord_fpsr (w : Word) : (s.placeWord w).fpsr = s.fpsr := rfl
@[simp] theorem State.placeWord_fault (w : Word) : (s.placeWord w).fault = none := rfl
@[simp] theorem State.placeWord_pc (w : Word) : (s.placeWord w).pc = s.pc &&& 0xFFFFFFFFFFFFFFFC#64 := rfl
@[simp] theorem State.placeWord_prog (w : Word) :
    (s.placeWord w).prog = writeBytes s.prog (s.pc &&& 0xFFFFFFFFFFFFFFFC#64) (bytesOfWord w) := rfl

@[simp] theorem State.after_next (t : State) : s.after (.next t) = t := rfl
@[simp] theorem State.after_fault (f : Fault) : s.after (.fault f) = { s with fault := some (.fault f) } := rfl
@[simp] theorem State.after_ended (pc : Addr) : s.after (.refused (.ended pc)) = s := rfl
@[simp] theorem State.after_notInSpec (pc : Addr) (w : Word) :
    s.after (.refused (.notInSpec pc w)) = { s with fault := some (.refusal (.notInSpec pc w)) } := rfl

end Sys2Proof.Machine
end

