-- ==== Sys2Proof/Laws/Memory.lean ====
section
/-! SUPPORT. The instruction memory: every operation keeps the canonical form, and a read sees the last write. -/

namespace Sys2Proof.Machine

theorem readByte_writeByte (m : Memory) (a k : Nat) (b : Byte) :
    readByte (writeByte m a b) k = if k = a then some b else readByte m k := by
  induction m with
  | nil => simp [writeByte, readByte, eq_comm]
  | cons c rest ih =>
    obtain ⟨j, v⟩ := c
    simp only [writeByte]
    split
    · simp only [readByte]; split_ifs <;> first | rfl | omega
    · split
      · simp only [readByte]; split_ifs <;> first | rfl | omega
      · simp only [readByte, ih]; split_ifs <;> first | rfl | omega

theorem mem_writeByte {m : Memory} {a : Nat} {b : Byte} {c : Host.Cell} (h : c ∈ writeByte m a b) :
    c = (a, b) ∨ c ∈ m := by
  induction m with
  | nil => simpa [writeByte] using h
  | cons d rest ih =>
    simp only [writeByte] at h
    split at h
    · simpa using h
    · split at h
      · rcases List.mem_cons.1 h with h | h
        · exact .inl h
        · exact .inr (List.mem_cons_of_mem _ h)
      · rcases List.mem_cons.1 h with h | h
        · exact .inr (h ▸ List.mem_cons_self)
        · exact (ih h).imp_right (List.mem_cons_of_mem _)

/-- A write of one byte keeps the canonical form. -/
theorem writeByte_wf {m : Memory} (hm : Memory.wf m) {a : Nat} (ha : a < 2 ^ 64) (b : Byte) : Memory.wf (writeByte m a b) := by
  obtain ⟨hp, hb⟩ := hm
  refine ⟨?_, fun c hc => (mem_writeByte hc).elim (fun e => e ▸ ha) (hb c)⟩
  clear hb
  induction m with
  | nil => simp [writeByte]
  | cons d rest ih =>
    obtain ⟨k, v⟩ := d
    rw [List.pairwise_cons] at hp
    simp only [writeByte]
    split
    · rename_i hak
      refine List.pairwise_cons.2 ⟨fun c hc => ?_, List.pairwise_cons.2 hp⟩
      rcases List.mem_cons.1 hc with rfl | hc
      · exact hak
      · exact hak.trans (hp.1 c hc)
    · split
      · rename_i hak; subst hak; exact List.pairwise_cons.2 hp
      · refine List.pairwise_cons.2 ⟨fun c hc => ?_, ih hp.2⟩
        rcases mem_writeByte hc with rfl | hc
        · simp only; omega
        · exact hp.1 c hc

/-- A write of several bytes keeps the canonical form. -/
theorem writeBytes_wf {m : Memory} (hm : Memory.wf m) (a : Addr) (bs : List Byte) : Memory.wf (writeBytes m a bs) := by
  induction bs generalizing m a with
  | nil => exact hm
  | cons b bs ih => exact ih (writeByte_wf hm a.isLt b) (a + 1)

/-- The host's load keeps the canonical form. -/
theorem placeWord_wf {s : State} (hs : Memory.wf s.prog) (w : Word) : Memory.wf (s.placeWord w).prog := writeBytes_wf hs _ _

theorem reset_prog_wf : Memory.wf State.reset.prog := by decide

/-- What a word read says about its four bytes: they are defined and stand little-endian (20_memory.md R48, R50). -/
theorem readWord_eq_some {m : Memory} {a : Addr} {w : Word} :
    readWord m a = some w ↔ ∃ b0 b1 b2 b3, readByte m a.toNat = some b0 ∧ readByte m (a + 1).toNat = some b1 ∧
      readByte m (a + 1 + 1).toNat = some b2 ∧ readByte m (a + 1 + 1 + 1).toNat = some b3 ∧ w = wordOfBytes b0 b1 b2 b3 := by
  simp only [readWord, readBytes]
  cases readByte m a.toNat <;> cases readByte m (a + 1).toNat <;> cases readByte m (a + 1 + 1).toNat <;>
    cases readByte m (a + 1 + 1 + 1).toNat <;> simp [eq_comm]

/-- A word read fails exactly when one of the four bytes is undefined (20_memory.md R50). -/
theorem readWord_eq_none {m : Memory} {a : Addr} :
    readWord m a = none ↔ readByte m a.toNat = none ∨ readByte m (a + 1).toNat = none ∨
      readByte m (a + 1 + 1).toNat = none ∨ readByte m (a + 1 + 1 + 1).toNat = none := by
  simp only [readWord, readBytes]
  cases readByte m a.toNat <;> cases readByte m (a + 1).toNat <;> cases readByte m (a + 1 + 1).toNat <;>
    cases readByte m (a + 1 + 1 + 1).toNat <;> simp

end Sys2Proof.Machine
end

