-- ==== Sys2Proof/Laws/Registers.lean ====
section
/-! SUPPORT. The register operations: what a read sees of a write, and that a write leaves nothing above the length. -/

namespace Sys2Proof.Machine

/-- VL is at least 128 and at most 2048 (00_scope.md R8). -/
theorem vl_bounds (c : Config) : 128 ≤ c.vl ∧ c.vl ≤ 2048 := by
  have := c.vq.isLt
  simp only [Config.vl]
  omega

/-- PL is at least 16 and at most 256 (00_scope.md R9). -/
theorem pl_bounds (c : Config) : 16 ≤ c.pl ∧ c.pl ≤ 256 := by
  have := vl_bounds c
  simp only [Config.pl]
  omega

/-- Bit `j` of the low VL bits. -/
theorem getLsbD_clipZ (c : Config) (v : BitVec 2048) (j : Nat) : (clipZ c v).getLsbD j = (decide (j < c.vl) && v.getLsbD j) := by
  have := (vl_bounds c).2
  by_cases h : j < c.vl
  · have h2 : j < 2048 := by omega
    simp [clipZ, h, h2]
  · simp [clipZ, h]

/-- Bit `j` of the low PL bits. -/
theorem getLsbD_clipP (c : Config) (v : BitVec 256) (j : Nat) : (clipP c v).getLsbD j = (decide (j < c.pl) && v.getLsbD j) := by
  have := (pl_bounds c).2
  by_cases h : j < c.pl
  · have h2 : j < 256 := by omega
    simp [clipP, h, h2]
  · simp [clipP, h]

@[simp] theorem clipZ_clipZ (c : Config) (v : BitVec 2048) : clipZ c (clipZ c v) = clipZ c v := by
  apply BitVec.eq_of_getLsbD_eq
  intro j _
  by_cases h : j < c.vl <;> simp [getLsbD_clipZ, h]

/-- A clipped value has no bit at or above VL. -/
theorem clipZ_lt (c : Config) (v : BitVec 2048) : (clipZ c v).toNat < 2 ^ c.vl := by
  rw [clipZ, BitVec.toNat_setWidth]
  exact Nat.lt_of_le_of_lt (Nat.mod_le _ _) (BitVec.isLt _)

/-- A read of a register after a write of one (00_scope.md R20). -/
theorem State.readZ_writeZ (s : State) (n k : ZReg) (v : BitVec 2048) :
    (s.writeZ n v).readZ k = if n = k then clipZ s.cfg v else s.readZ k := by
  simp only [State.readZ, State.writeZ_cfg, State.writeZ_z, Fin.getElem_fin, Vector.getElem_set, Fin.val_inj]
  split <;> simp

end Sys2Proof.Machine
end

