-- ==== Sys2Proof/Laws/Step.lean ====
section
/-! SUPPORT. Everything a step, a fetch and FMAXNMP can do, said once. -/

namespace Sys2Proof.Machine

/-- A fetch answers a word exactly when the pc is aligned and the word is there (20_memory.md R50). -/
theorem fetch_eq_ok {s : State} {w : Word} : fetch s = .ok w ↔ s.pc.toNat % 4 = 0 ∧ readWord s.prog s.pc = some w := by
  simp only [fetch]
  split
  · simp_all
  · cases readWord s.prog s.pc <;> simp_all

/-- FMAXNMP, by cases: every answer it can give and when (40_fmaxnmp.md R90). -/
theorem execFmaxnmp_cases (size : Size) (pg : PReg) (zm zdn : ZReg) (s : State) :
    let w := encode (.fmaxnmp size pg zm zdn)
    ((s.cfg.haveSve2 = false ∨ size.format = none) ∧ execFmaxnmp size pg zm zdn s = .fault (.undefined s.pc w)) ∨
    (s.cfg.haveSve2 = true ∧ ∃ f, size.format = some f ∧
      ((s.cfg.sveEnabled = false ∧ execFmaxnmp size pg zm zdn s = .fault (.sveAccessTrap s.pc)) ∨
       (s.cfg.sveEnabled = true ∧ trapEnabled s.readFpcr = true ∧ execFmaxnmp size pg zm zdn s = .refused (.notInSpec s.pc w)) ∨
       (s.cfg.sveEnabled = true ∧ trapEnabled s.readFpcr = false ∧
         execFmaxnmp size pg zm zdn s = .next (fmaxnmpOperation f pg zm zdn s)))) := by
  cases h1 : s.cfg.haveSve2 <;> cases h2 : size.format <;> cases h3 : s.cfg.sveEnabled <;>
    cases h4 : trapEnabled s.readFpcr <;> simp [execFmaxnmp, raise, refuse, h1, h2, h3, h4]

/-- A next state comes from the operation, every check having passed. -/
theorem exec_next {i : Instr} {s t : State} (h : exec i s = .next t) :
    ∃ size f pg zm zdn, i = .fmaxnmp size pg zm zdn ∧ size.format = some f ∧ s.cfg.haveSve2 = true ∧
      s.cfg.sveEnabled = true ∧ trapEnabled s.readFpcr = false ∧ t = fmaxnmpOperation f pg zm zdn s := by
  obtain ⟨size, pg, zm, zdn⟩ := i
  simp only [exec] at h
  rcases execFmaxnmp_cases size pg zm zdn s with ⟨_, h'⟩ | ⟨h1, f, h2, ⟨_, h'⟩ | ⟨_, _, h'⟩ | ⟨h3, h4, h'⟩⟩ <;>
    rw [h'] at h <;> cases h
  exact ⟨size, f, pg, zm, zdn, rfl, h2, h1, h3, h4, rfl⟩

/-- A step answers a next state only by executing the decoded word at the pc. -/
theorem step_next {s t : State} (h : step s = .next t) :
    s.fault = none ∧ s.pc ≠ s.cfg.haltAddr ∧ ∃ w i, fetch s = .ok w ∧ decode w = .ok i ∧ exec i s = .next t := by
  simp only [step] at h
  split at h
  · rename_i stop _; cases stop <;> cases h
  · split at h
    · cases h
    · split at h
      · cases h
      · split at h
        · cases h
        · exact ⟨‹_›, ‹_›, _, _, ‹_›, ‹_›, h⟩

/-- Past the recorded stop, the end of the run and the fetch, a step is what the word decodes to. -/
theorem step_of_fetch {s : State} {w : Word} (hf : s.fault = none) (hh : s.pc ≠ s.cfg.haltAddr) (hw : fetch s = .ok w) :
    step s =
      match decode w with
      | .error _ => refuse (.notInSpec s.pc w)
      | .ok i => exec i s := by
  cases hd : decode w <;> simp [step, hf, hh, hw, hd]

end Sys2Proof.Machine
end

