-- ==== Sys2Proof/Laws/Fmaxnmp.lean ====
section
/-! SUPPORT. FMAXNMP by its parts: when it executes, what the loop leaves in each element, which flags it collects. -/

namespace Sys2Proof.Machine

/-- The refusal of R121 looks at bit 15 and bits 12:8 of FPCR. -/
theorem trapEnabled_readFpcr (s : State) : trapEnabled s.readFpcr = true ↔
    s.fpcr.getLsbD 15 = true ∨ s.fpcr.extractLsb' 8 5 ≠ 0#5 := by
  have : (s.fpcr &&& fpcrFields).extractLsb' 8 5 = s.fpcr.extractLsb' 8 5 := by
    apply BitVec.eq_of_getLsbD_eq; intro j hj; interval_cases j <;> simp [fpcrFields]
  simp [trapEnabled, State.readFpcr, this]
  simp [fpcrFields]

/-- The launch premise L3 is that the refusal of R121 does not apply. -/
theorem trapBitsZero_iff (s : State) : trapBitsZero s.fpcr ↔ trapEnabled s.readFpcr = false := by
  rw [← Bool.not_eq_true, trapEnabled_readFpcr]
  have : s.fpcr.extractLsb' 8 5 = 0#5 ↔ ∀ j < 5, s.fpcr.getLsbD (8 + j) = false := by
    constructor
    · intro h j hj
      have : (s.fpcr.extractLsb' 8 5).getLsbD j = false := by rw [h]; simp
      simpa [hj] using this
    · intro h; apply BitVec.eq_of_getLsbD_eq; intro j hj; simp [h j hj]
  simp only [trapBitsZero, not_or, not_not, this]
  constructor
  · intro h
    simp at h
    refine ⟨by simp [h], ?_⟩
    intro j hj; interval_cases j <;> simp [h]
  · rintro ⟨h, h'⟩
    have := h' 0 (by omega); have := h' 1 (by omega); have := h' 2 (by omega); have := h' 3 (by omega); have := h' 4 (by omega)
    simp_all

/-- A legal FMAXNMP in a ready state completes (40_fmaxnmp.md R90). -/
theorem exec_of_ready (size f pg zm zdn) (s : State) (h : s.ready) (hf : Size.format size = some f) :
    exec (.fmaxnmp size pg zm zdn) s = .next (fmaxnmpOperation f pg zm zdn s) := by
  obtain ⟨h1, h2, h3⟩ := h
  rw [trapBitsZero_iff] at h3
  simp [exec, execFmaxnmp, h1, h2, h3, hf]

/-- What a run over elements leaves in element `e`: its call where it was met and active, else what stood there. -/
theorem elem_foldl_fmaxnmpElement (fp f mask) (o1 o2 : BitVec 2048) (fpcr) (acc : BitVec 2048 × FpFlags) (e : Nat)
    (he : (e+1) * FpFormat.width f ≤ 2048) (l : List Nat) (hn : l.Nodup) :
   elem (l.foldl (fmaxnmpElement fp f mask o1 o2 fpcr) acc).1 e f.width = if e ∈ l ∧ elemP mask e f.width = true then
     (fp f (pairOperands f o1 o2 e).1 (pairOperands f o1 o2 e).2 fpcr).1 else elem acc.1 e f.width := by
  induction l generalizing acc with
  | nil => simp
  | cons a l ih =>
    rw [List.nodup_cons] at hn
    rw [List.foldl_cons, ih _ hn.2]
    by_cases hea : e = a
    · subst hea
      simp only [hn.1, false_and, if_false, List.mem_cons, true_or, true_and]
      by_cases hm : elemP mask e f.width = true
      · simp only [fmaxnmpElement, hm, if_true]
        exact elem_setElem_same _ _ _ he
      · simp [fmaxnmpElement, hm]
    · have : elem (fmaxnmpElement fp f mask o1 o2 fpcr acc a).1 e f.width = elem acc.1 e f.width := by
        simp only [fmaxnmpElement]
        split
        · exact elem_setElem_other _ _ (Ne.symm hea)
        · rfl
      rw [this]; simp [hea]

/-- The flags a run over elements collects: those of its active elements (40_fmaxnmp.md R85). -/
theorem flags_foldl_fmaxnmpElement (fp f mask) (o1 o2 : BitVec 2048) (fpcr) (acc : BitVec 2048 × FpFlags) (l : List Nat) :
   let call := fun e => (fp f (pairOperands f o1 o2 e).1 (pairOperands f o1 o2 e).2 fpcr : _ × FpFlags).2
   let r := (l.foldl (fmaxnmpElement fp f mask o1 o2 fpcr) acc).2
   (r.ioc = true ↔ acc.2.ioc = true ∨ ∃ e ∈ l, elemP mask e f.width = true ∧ (call e).ioc = true) ∧
   (r.idc = true ↔ acc.2.idc = true ∨ ∃ e ∈ l, elemP mask e f.width = true ∧ (call e).idc = true) := by
  induction l generalizing acc with
  | nil => simp
  | cons a l ih =>
    simp only [List.foldl_cons, List.mem_cons, exists_eq_or_imp] at ih ⊢
    obtain ⟨h1, h2⟩ := ih (fmaxnmpElement fp f mask o1 o2 fpcr acc a)
    rw [h1, h2]
    by_cases hm : elemP mask a f.width = true
    · simp [fmaxnmpElement, hm, FpFlags.union, or_assoc]
    · simp [fmaxnmpElement, hm]

/-- IOC is bit 0, IDC bit 7 (10_state.md R36). -/
theorem getLsbD_flagBits (fl : FpFlags) (k : Nat) : (flagBits fl).getLsbD k = true ↔
    (k = 0 ∧ fl.ioc = true) ∨ (k = 7 ∧ fl.idc = true) := by
  by_cases hk : k < 32
  · obtain ⟨a, b⟩ := fl
    have : ∀ a b, ∀ k : Fin 32, (flagBits ⟨a, b⟩).getLsbD k = true ↔ (k.val = 0 ∧ a = true) ∨ (k.val = 7 ∧ b = true) :=
      by decide
    exact this a b ⟨k, hk⟩
  · rw [BitVec.getLsbD_of_ge _ _ (by omega)]; simp; omega

/-- An element inside VL reads the same of the low VL bits. -/
theorem elem_clipZ (c : Config) (v : BitVec 2048) (e w : Nat) (h : (e+1)*w ≤ c.vl) : elem (clipZ c v) e w = elem v e w := by
  apply BitVec.eq_of_getLsbD_eq; intro j hj
  have h1 : e * w + j < c.vl := by rw [Nat.add_mul] at h; omega
  rw [getLsbD_elem, getLsbD_elem, getLsbD_clipZ]; simp [h1]

/-- A format has a width. -/
theorem fpFormat_width_pos (f : FpFormat) : 0 < f.width := by cases f <;> decide

/-- An element of the loop lies inside VL (40_fmaxnmp.md R83). -/
theorem element_in_vl (c : Config) (f : FpFormat) (e : Nat) (h : e < c.vl / f.width) : (e+1) * f.width ≤ c.vl := by
  have := Nat.mul_le_mul_right f.width (Nat.succ_le_of_lt h)
  exact this.trans (Nat.div_mul_le_self _ _)

/-- The predicate bit of an element of the loop lies inside PL (40_fmaxnmp.md R83). -/
theorem predicate_bit_in_pl (c : Config) (f : FpFormat) (e : Nat) (h : e < c.vl / f.width) : e * (f.width / 8) < c.pl := by
  simp only [Config.pl, Config.vl] at *
  cases f <;> simp only [FpFormat.width] at * <;> omega

/-- The predicate bit the loop reads. -/
theorem elemP_readP (s : State) (f pg e) (h : e < s.cfg.vl / FpFormat.width f) :
    elemP (s.readP pg) e f.width = (s.p[pg]).getLsbD (e * (f.width / 8)) := by
  simp only [elemP, State.readP, getLsbD_clipP, predicate_bit_in_pl s.cfg f e h, decide_true, Bool.true_and]

/-- What Z[dn] reads as after the operation (40_fmaxnmp.md R82). -/
theorem fmaxnmpOperation_readZ (f pg zm zdn) (s : State) :
    (fmaxnmpOperation f pg zm zdn s).readZ zdn = clipZ s.cfg (fmaxnmpResult f pg zm zdn s).1 := by
  have : (fmaxnmpOperation f pg zm zdn s).readZ zdn = (s.writeZ zdn (fmaxnmpResult f pg zm zdn s).1).readZ zdn := rfl
  rw [this, State.readZ_writeZ, if_pos rfl]

/-- The pair the loop takes is the pair R81 writes. -/
theorem pairOperands_eq_callOperands (s : State) (f zm zdn e) :
    pairOperands f (s.readZ zdn) (s.readZ zm) e = callOperands s f zm zdn e := by
  simp only [pairOperands, callOperands, isEven]
  by_cases h : e % 2 = 0 <;> simp [h]

end Sys2Proof.Machine
end

