-- ==== Sys2Proof/Laws/FpMaxNum.lean ====
section
/-! SUPPORT. FPMaxNum by its parts: the fields of an operand, its class, the flush, the NaN cases and the flags of the reference. -/

namespace Sys2Proof.Machine

/-- The fields of a packed operand (41_fpmaxnum_numerics.md R96). -/
theorem fpPack_fields (f) (s e) (m : BitVec (FpFormat.fracBits f)) : fpSign f (fpPack f s e m) = s
    ∧ fpExp f (fpPack f s e m) = e ∧ fpFrac f (fpPack f s e m) = m := by
  have hw : 1 + f.expBits + f.fracBits = f.width := by cases f <;> rfl
  refine ⟨?_, ?_, ?_⟩
  · simp only [fpSign, fpPack, BitVec.getLsbD_setWidth, BitVec.getLsbD_append]
    cases f <;> cases s <;> simp [FpFormat.width, FpFormat.fracBits, FpFormat.expBits]
  · apply BitVec.eq_of_getLsbD_eq; intro j hj
    have h1 : f.fracBits + j < f.width := by omega
    simp [fpExp, fpPack, BitVec.getLsbD_append, h1, hj]
  · apply BitVec.eq_of_getLsbD_eq; intro j hj
    have h1 : j < f.width := by omega
    simp [fpFrac, fpPack, BitVec.getLsbD_append, h1, hj]

/-- An operand is its three fields (R96). -/
theorem fp_ext (f) (x y : BitVec (FpFormat.width f)) (h1 : fpSign f x = fpSign f y) (h2 : fpExp f x = fpExp f y)
    (h3 : fpFrac f x = fpFrac f y) : x = y := by
  have hw : f.width = 1 + f.expBits + f.fracBits := by cases f <;> rfl
  apply BitVec.eq_of_getLsbD_eq; intro j hj
  by_cases a : j < f.fracBits
  · have := congrArg (fun b => b.getLsbD j) h3
    simpa [fpFrac, a] using this
  · by_cases b : j < f.fracBits + f.expBits
    · have := congrArg (fun b => b.getLsbD (j - f.fracBits)) h2
      have c : j - f.fracBits < f.expBits := by omega
      have d : f.fracBits + (j - f.fracBits) = j := by omega
      simpa [fpExp, c, d] using this
    · have : j = f.width - 1 := by omega
      rw [this]; exact h1

/-- What quieting keeps and sets (R102). -/
theorem fpQuiet_fields (f) (x : BitVec (FpFormat.width f)) : fpSign f (fpQuiet f x) = fpSign f x
    ∧ fpExp f (fpQuiet f x) = fpExp f x ∧ (fpFrac f (fpQuiet f x)).getLsbD (f.fracBits - 1) = true := by
  have hw : f.width = 1 + f.expBits + f.fracBits := by cases f <;> rfl
  have hf : 0 < f.fracBits := by cases f <;> decide
  have he : 0 < f.expBits := by cases f <;> decide
  refine ⟨?_, ?_, ?_⟩
  · simp [fpSign, fpQuiet, BitVec.getLsbD_twoPow]; omega
  · apply BitVec.eq_of_getLsbD_eq; intro j hj
    simp [fpExp, fpQuiet, hj, BitVec.getLsbD_twoPow]; omega
  · simp [fpFrac, fpQuiet, hf, BitVec.getLsbD_twoPow]; omega

/-- Ones(E) is not zero. -/
theorem allOnes_expBits_ne_zero (f : FpFormat) : BitVec.allOnes f.expBits ≠ 0 := by cases f <;> decide

/-- A NaN is signalling or quiet (R97). -/
theorem isNaN_iff (f) (x : BitVec (FpFormat.width f)) : isNaN f x = true ↔ isSNaN f x = true ∨ isQNaN f x = true := by
  simp only [isSNaN, isQNaN]; cases isNaN f x <;> simp

/-- And not both. -/
theorem isSNaN_of_isQNaN (f : FpFormat) (x : BitVec f.width) (h : isQNaN f x = true) : isSNaN f x = false := by
  simp_all [isQNaN, isSNaN]

/-- A NaN by its fields (R97). -/
theorem isNaN_iff_fields (f) (x : BitVec (FpFormat.width f)) : isNaN f x = true ↔ fpExp f x = BitVec.allOnes _
    ∧ fpFrac f x ≠ 0 := by
  simp only [isNaN, Bool.and_eq_true, beq_iff_eq, bne_iff_ne]

/-- A denormal by its fields (R97). -/
theorem isDenormal_iff_fields (f) (x : BitVec (FpFormat.width f)) : isDenormal f x = true ↔ fpExp f x = 0 ∧ fpFrac f x ≠ 0 := by
  simp only [isDenormal, Bool.and_eq_true, beq_iff_eq, bne_iff_ne]

/-- Quieting a NaN gives a quiet NaN (R102). -/
theorem isQNaN_fpQuiet (f) (x : BitVec (FpFormat.width f)) (h : fpExp f x = BitVec.allOnes f.expBits) :
    isQNaN f (fpQuiet f x) = true := by
  obtain ⟨_, b, c⟩ := fpQuiet_fields f x
  have : fpFrac f (fpQuiet f x) ≠ 0 := by intro e; rw [e] at c; simp at c
  simp only [isQNaN, isNaN, b, h, c, Bool.and_true, BEq.rfl, Bool.true_and, bne_iff_ne, ne_eq]; exact this

/-- The fields of an infinity (R106). -/
theorem fpInfinity_fields (f s) : fpSign f (fpInfinity f s) = s ∧ fpExp f (fpInfinity f s) = BitVec.allOnes _
    ∧ fpFrac f (fpInfinity f s) = 0 := fpPack_fields _ _ _ _

/-- The fields of a zero. -/
theorem fpZero_fields (f s) : fpSign f (fpZero f s) = s ∧ fpExp f (fpZero f s) = 0 ∧ fpFrac f (fpZero f s) = 0 :=
    fpPack_fields _ _ _ _

/-- When the class is Zero (R97). -/
theorem fpClass_eq_zero_iff (f) (x : BitVec (FpFormat.width f)) (fz) : fpClass f x fz = .zero ↔ fpExp f x = 0
    ∧ (fpFrac f x = 0 ∨ fz = true) := by
  simp only [fpClass]; have := allOnes_expBits_ne_zero f
  cases fz <;> split_ifs <;> simp_all

/-- When the class is SNaN (R97). -/
theorem fpClass_eq_snan_iff (f : FpFormat) (x : BitVec f.width) (fz) : fpClass f x fz = .snan ↔ isSNaN f x = true := by
  simp only [fpClass, isSNaN, isNaN]
  have hne : BitVec.allOnes f.expBits ≠ 0 := by cases f <;> decide
  generalize fpExp f x = a; generalize fpFrac f x = b
  cases fz <;> split_ifs <;> simp_all

/-- When the class is QNaN (R97). -/
theorem fpClass_eq_qnan_iff (f : FpFormat) (x : BitVec f.width) (fz) : fpClass f x fz = .qnan ↔ isQNaN f x = true := by
  simp only [fpClass, isQNaN, isNaN]
  have hne : BitVec.allOnes f.expBits ≠ 0 := by cases f <;> decide
  generalize fpExp f x = a; generalize fpFrac f x = b
  cases fz <;> split_ifs <;> simp_all

/-- An operand with no exponent and no fraction is the zero of its sign. -/
theorem eq_fpZero (f) (x : BitVec (FpFormat.width f)) (h : fpExp f x = 0) (h2 : fpFrac f x = 0) : x = fpZero f (fpSign f x) :=
    by
  obtain ⟨a, b, c⟩ := fpZero_fields f (fpSign f x)
  exact fp_ext _ _ _ a.symm (by rw [h, b]) (by rw [h2, c])

/-- The flush keeps the sign (R98). -/
theorem fpSign_fpFlush (f) (x : BitVec (FpFormat.width f)) (fz) : fpSign f (fpFlush f fz x) = fpSign f x := by
  simp only [fpFlush]; split
  · exact (fpZero_fields _ _).1
  · rfl

/-- The flush leaves every operand that is not of class Zero (R98). -/
theorem fpFlush_of_not_zero (f) (x : BitVec (FpFormat.width f)) (fz) (h : fpClass f x fz ≠ .zero) : fpFlush f fz x = x := by
  rw [fpFlush, if_neg]
  rw [Ne, fpClass_eq_zero_iff] at h
  simp only [Bool.and_eq_true, isDenormal_iff_fields]
  rintro ⟨rfl, h1, h2⟩; exact h ⟨h1, .inr rfl⟩

/-- The flush of an operand of class Zero is the zero of its sign (R98). -/
theorem fpFlush_of_zero (f) (x : BitVec (FpFormat.width f)) (fz) (h : fpClass f x fz = .zero) :
    fpFlush f fz x = fpZero f (fpSign f x) := by
  rw [fpClass_eq_zero_iff] at h
  rw [fpFlush]; split
  · rfl
  · rename_i h'
    simp only [Bool.and_eq_true, isDenormal_iff_fields] at h'
    rcases h.2 with h2 | rfl
    · exact eq_fpZero _ _ h.1 h2
    · by_cases h2 : fpFrac f x = 0
      · exact eq_fpZero _ _ h.1 h2
      · exact absurd ⟨rfl, h.1, h2⟩ h'

/-- The reference by the NaNs among its operands (R100, R101, R104). -/
theorem fpMaxNumRef_by_nans (f : FpFormat) (op1 op2 : BitVec f.width) (fpcr : Word) :
    fpMaxNumRef f op1 op2 fpcr =
      if isSNaN f op1 = true then (nanOut f op1 true (fpcrDN fpcr), refFlags f op1 op2 (flushControl f fpcr) true)
      else if isSNaN f op2 = true then (nanOut f op2 true (fpcrDN fpcr), refFlags f op1 op2 (flushControl f fpcr) true)
      else if isQNaN f op1 = true ∧ isQNaN f op2 = true then (nanOut f op1 false (fpcrDN fpcr),
        refFlags f op1 op2 (flushControl f fpcr) false)
      else
        (maxNumeric f (flushControl f fpcr) (if isQNaN f op1 = true then fpInfinity f true else op1)
          (if isQNaN f op2 = true then fpInfinity f true else op2),
         refFlags f op1 op2 (flushControl f fpcr) false) := by
  simp only [fpMaxNumRef]
  have s1 := fpClass_eq_snan_iff f op1 (flushControl f fpcr)
  have s2 := fpClass_eq_snan_iff f op2 (flushControl f fpcr)
  have q1 := fpClass_eq_qnan_iff f op1 (flushControl f fpcr)
  have q2 := fpClass_eq_qnan_iff f op2 (flushControl f fpcr)
  simp only [← s1, ← s2, ← q1, ← q2]
  clear s1 s2 q1 q2
  generalize fpClass f op1 (flushControl f fpcr) = t1
  generalize fpClass f op2 (flushControl f fpcr) = t2
  cases t1 <;> cases t2 <;> simp

/-- The flags of the reference (R98, R108). -/
theorem fpMaxNumRef_flags (f : FpFormat) (a b : BitVec f.width) (c) : ((fpMaxNumRef f a b c).2.ioc = true ↔
    isSNaN f a = true ∨ isSNaN f b = true) ∧ ((fpMaxNumRef f a b c).2.idc = true ↔ f ≠ .half ∧ flushControl f c = true
      ∧ (isDenormal f a = true ∨ isDenormal f b = true)) := by
  rw [fpMaxNumRef_by_nans]
  split_ifs <;> simp_all [refFlags, and_assoc]

end Sys2Proof.Machine
end

