-- ==== Sys2Proof/Laws/Launch.lean ====
section
/-! SUPPORT. What the launch premises give: the words of the program, where its addresses meet halt_addr; and runs step by step. -/

namespace Sys2Proof.Machine

/-- Every word of the program a state holds is there to be fetched (70_reset_and_hazards.md R133, L4). -/
theorem State.holdsProgram_readWord {s : State} {k : Nat} (h : s.holdsProgram k) {j : Nat} (hj : j < k) :
    ∃ w, readWord s.prog (s.pc + BitVec.ofNat 64 (4 * j)) = some w := by
  obtain ⟨_, _, hk, hb, _⟩ := h
  rw [← Option.isSome_iff_exists, Option.isSome_iff_ne_none, Ne, readWord_eq_none]
  have e : ∀ i < 4, readByte s.prog ((s.pc.toNat + (4 * j + i)) % 2 ^ 64) ≠ none := fun i hi => hb _ (by omega)
  have e0 := e 0 (by decide); have e1 := e 1 (by decide); have e2 := e 2 (by decide); have e3 := e 3 (by decide)
  have a0 : (s.pc + BitVec.ofNat 64 (4 * j)).toNat = (s.pc.toNat + (4 * j + 0)) % 2 ^ 64 := by simp
  have a1 : (s.pc + BitVec.ofNat 64 (4 * j) + 1).toNat = (s.pc.toNat + (4 * j + 1)) % 2 ^ 64 := by simp; omega
  have a2 : (s.pc + BitVec.ofNat 64 (4 * j) + 1 + 1).toNat = (s.pc.toNat + (4 * j + 2)) % 2 ^ 64 := by simp; omega
  have a3 : (s.pc + BitVec.ofNat 64 (4 * j) + 1 + 1 + 1).toNat = (s.pc.toNat + (4 * j + 3)) % 2 ^ 64 := by simp; omega
  rw [a0, a1, a2, a3]
  exact fun h => h.elim e0 fun h => h.elim e1 fun h => h.elim e2 e3

/-- Of the addresses of the program's words and the one after them, halt_addr is the last alone (70_reset_and_hazards.md R133, L4). -/
theorem State.holdsProgram_haltAddr {s : State} {k : Nat} (h : s.holdsProgram k) {j : Nat} (hj : j ≤ k) :
    s.pc + BitVec.ofNat 64 (4 * j) = s.cfg.haltAddr ↔ j = k := by
  obtain ⟨_, _, hk, _, hh⟩ := h
  rw [hh]
  constructor
  · intro e
    have := congrArg BitVec.toNat e
    simp only [BitVec.toNat_add, BitVec.toNat_ofNat] at this
    have := s.pc.isLt
    omega
  · rintro rfl
    rfl

/-- The addresses of the program's words are multiples of 4 (70_reset_and_hazards.md R133, L4). -/
theorem State.holdsProgram_aligned {s : State} {k : Nat} (h : s.holdsProgram k) (j : Nat) :
    (s.pc + BitVec.ofNat 64 (4 * j)).toNat % 4 = 0 := by
  have := h.1
  rw [BitVec.toNat_add, BitVec.toNat_ofNat]
  omega

/-- A run of one step more is a step from where the run stands. -/
theorem run_succ_of_run (M : Host.Core) (j : Nat) (s t : M.State) (h : M.run j s = .next t) : M.run (j + 1) s = M.step t := by
  induction j generalizing s with
  | zero =>
    cases h
    simp only [Host.Core.run]
    cases M.step t <;> rfl
  | succ j ih =>
    rw [Host.Core.run] at h ⊢
    cases hs : M.step s with
    | next u => rw [hs] at h; exact ih u h
    | fault r => rw [hs] at h; cases h
    | refused r => rw [hs] at h; cases h

end Sys2Proof.Machine
end

