-- ==== Sys2Proof/Laws/PerInstr.lean ====
section
/-! SUPPORT. Statements made of each instruction as syntax. -/

/-- The word of an instruction has the fixed bits of the opcode table (30_encoding.md R59). -/
def Sys2Proof.Laws.FixedBits.Statement (i : Sys2Proof.Instr) : Prop :=
  Sys2Proof.encode i &&& Sys2Proof.fixedMask = Sys2Proof.fixedMatch

theorem Sys2Proof.Laws.FixedBits.fmaxnmp (size : Sys2Proof.Size) (pg : Sys2Proof.PReg) (zm zdn : Sys2Proof.ZReg) :
    Sys2Proof.Laws.FixedBits.Statement (.fmaxnmp size pg zm zdn) := by
  apply BitVec.eq_of_getLsbD_eq
  intro j hj
  have hk : ∀ k : Fin 32, (Sys2Proof.encode (.fmaxnmp size pg zm zdn) &&& Sys2Proof.fixedMask).getLsbD k =
      Sys2Proof.fixedMatch.getLsbD k := by
    intro k
    fin_cases k <;> simp [Sys2Proof.encode, Sys2Proof.fixedMask, Sys2Proof.fixedMatch]
  exact hk ⟨j, hj⟩
end

