-- ==== Sys2Proof/Tests/Slice0.lean ====
section
/-! SUPPORT. Tests from the vectors of 95_test_vectors.md, and for every obligation with hypotheses a witness that meets them. -/

namespace Sys2Proof.Tests

open Sys2Proof.Machine

/-! ## Helpers -/

/-- Four bytes in memory order, as the vectors of 95_test_vectors.md print them. -/
def bytesAt (a : Nat) (b0 b1 b2 b3 : Byte) : List Host.Cell := [(a, b0), (a + 1, b1), (a + 2, b2), (a + 3, b3)]

/-- A small state of the vectors: VL = 128, pc = 0x1000, Z0, Z1, P0, FPCR, FPSR and four bytes at pc given, all else zero. -/
def small (z0 z1 : BitVec 2048) (p0 : BitVec 256) (fpcr fpsr : Word) (prog : List Host.Cell) : State :=
  { State.reset with
    z := (Vector.replicate 32 0#2048).set 0 z0 |>.set 1 z1
    p := (Vector.replicate 16 0#256).set 0 p0
    fpcr := fpcr, fpsr := fpsr, pc := 0x1000#64, prog := prog }

/-- The bytes of 0x64948020, `FMAXNMP Z0.S, P0/M, Z0.S, Z1.S` (vector E7). -/
def wordE7 : List Host.Cell := bytesAt 0x1000 0x20#8 0x80#8 0x94#8 0x64#8

/-- The state before vector V12. -/
def v12 : State :=
  small 0x400000007FA000003F8000007FC00000#2048 0xFFC000027FC000010000000080000000#2048 0x1111#256 0#32 0x80#32 wordE7

/-- The state before vector V14: FZ = 1. -/
def v14 : State :=
  small 0x807FFFFF800000018000000000000001#2048 0x000000013F8000007FC00000007FFFFF#2048 0xFFFF#256 0x01000000#32 0#32 wordE7

/-- The state of V12 with element 1 active only: an even element inactive, an odd one active, one inactive. -/
def v12OnlyOne : State := { v12 with p := v12.p.set 0 0x0010#256 }

/-- V12's state with every parameter and register that a stop may look at open to change. -/
def v12With (sve2 sve : Bool) (fpcr : Word) : State :=
  { v12 with cfg := { v12.cfg with haveSve2 := sve2, sveEnabled := sve }, fpcr := fpcr }

/-- What a test reads of an outcome: Z0, FPSR and pc of a next state. -/
def looks (o : Host.Outcome State Fault Refusal) : Option (BitVec 2048 × Word × Addr) :=
  match o with
  | .next t => some (t.readZ 0, t.fpsr, t.pc)
  | .fault _ => none
  | .refused _ => none

/-! ## Well-formedness: each check refuses an ill-formed term -/

theorem test_wellFormed_good : (Instr.fmaxnmp .h 7 31 31).wellFormed = true := by decide
theorem test_wellFormed_reserved_size : (Instr.fmaxnmp .reserved 0 1 0).wellFormed = false := by decide
theorem test_wellFormed_predicate_8 : (Instr.fmaxnmp .h 8 1 0).wellFormed = false := by decide

/-- The line of vector E2, `FMAXNMP Z3.S, P7/M, Z3.S, Z31.S`. -/
def lineE2 : AsmLine := { zdn := 3, t := .s, pg := 7, zdn2 := 3, t2 := .s, zm := 31, t3 := .s }

theorem test_line_good : lineE2.wellFormed = true ∧ lineE2.text = "FMAXNMP Z3.S, P7/M, Z3.S, Z31.S" := by decide
theorem test_line_two_destinations : { lineE2 with zdn2 := 4 }.wellFormed = false := by decide
theorem test_line_second_letter : { lineE2 with t2 := .d }.wellFormed = false := by decide
theorem test_line_third_letter : { lineE2 with t3 := .h }.wellFormed = false := by decide
theorem test_line_predicate_8 : { lineE2 with pg := 8 }.wellFormed = false := by decide

/-! ## Decoding: bytes and words written out from 30_encoding.md R58 and the vectors E and X -/

/-- 01100100 10 010100 100 111 11111 00011, vector E2: fixed, size, fixed, fixed, Pg, Zm, Zdn. -/
theorem test_decode_fields :
    decode (0b01100100#8 ++ 0b10#2 ++ 0b010100#6 ++ 0b100#3 ++ 0b111#3 ++ 0b11111#5 ++ 0b00011#5)
      = .ok (.fmaxnmp .s 7 31 3) := by decide
theorem test_decode_bytes_E3 : decodeBytes [0x54#8, 0x95#8, 0xD4#8, 0x64#8, 0xAA#8] = .ok (.fmaxnmp .d 5 10 20, [0xAA#8]) := by
  decide
theorem test_decode_truncated : decodeBytes [0x54#8, 0x95#8, 0xD4#8] = .error .truncated := by decide
theorem test_decode_bit_18 : decode 0x64508020#32 = .error (.notInSpec 0x64508020#32) := by decide
theorem test_decode_bit_13 : decode 0x6454A020#32 = .error (.notInSpec 0x6454A020#32) := by decide
theorem test_decodeTableWord : decodeTableWord 32 0x64148000 = some (.fmaxnmp .reserved 0 0 0) := by decide

/-! ## FMAXNMP: one step on two vectors -/

/-- Vector V12: NaNs, zeros, and FPSR accumulating IOC onto an IDC set before. -/
theorem test_fmaxnmp_V12 : looks (step v12) = some (0x7FC000017FE00000000000003F800000#2048, 0x81#32, 0x1004#64) := by decide +kernel

/-- Vector V14: denormals flushed under FZ, IDC set. -/
theorem test_fmaxnmp_V14 : looks (step v14) = some (0x3F800000800000000000000000000000#2048, 0x80#32, 0x1004#64) := by decide +kernel

/-! ## Witnesses: encoding -/

theorem witness_DecodeOfEncode : (7 : PReg).val < 8 ∧
    decode (encode (.fmaxnmp .reserved 7 31 31)) = .ok (.fmaxnmp .reserved 7 31 31) := by decide
theorem witness_EncodeOfDecode : decode 0x64949FFF#32 = .ok (.fmaxnmp .s 7 31 31) := by decide
theorem witness_FieldsAreUnsignedSlices : decode 0x64D49C85#32 = .ok (.fmaxnmp .d 7 4 5) := by decide
theorem witness_EncodedWordIsTheSum : (7 : PReg).val < 8 ∧ (encode (.fmaxnmp .d 7 31 31)).toNat = 0x64D49FFF := by decide
theorem witness_AssemblerLineRules :
    lineE2.assemble = some (.fmaxnmp .s 7 31 3) ∧ (Instr.fmaxnmp .s 7 31 3).wellFormed = true := by decide

/-! ## Witnesses: fetch and step -/

/-- Bytes across the top of the address space: at 2^64 - 2, 2^64 - 1, 0 and 1. -/
def wrapped : List Host.Cell := [(0, 0x54#8), (1, 0x64#8), (2 ^ 64 - 2, 0x20#8), (2 ^ 64 - 1, 0x80#8)]

theorem witness_FetchIsLittleEndian :
    readByte wrapped ((0xFFFFFFFFFFFFFFFE#64).toNat % 2 ^ 64) = some 0x20#8 ∧
    readByte wrapped (((0xFFFFFFFFFFFFFFFE#64).toNat + 1) % 2 ^ 64) = some 0x80#8 ∧
    readByte wrapped (((0xFFFFFFFFFFFFFFFE#64).toNat + 2) % 2 ^ 64) = some 0x54#8 ∧
    readByte wrapped (((0xFFFFFFFFFFFFFFFE#64).toNat + 3) % 2 ^ 64) = some 0x64#8 ∧
    readWord wrapped 0xFFFFFFFFFFFFFFFE#64 = some 0x64548020#32 := by decide

/-- Vector F7: pc = 0x1002. -/
theorem witness_FetchAdmission_misaligned :
    let s : State := { v12 with pc := 0x1002#64 }
    s.fault = none ∧ s.pc ≠ s.cfg.haltAddr ∧ s.pc.toNat % 4 ≠ 0 := by decide

/-- Vector F8: prog undefined at pc + 3. -/
theorem witness_FetchAdmission_undefined_byte :
    let s : State := { v12 with prog := wordE7.take 3 }
    s.fault = none ∧ s.pc ≠ s.cfg.haltAddr ∧ s.pc.toNat % 4 = 0 ∧
      ∃ k < 4, readByte s.prog ((s.pc.toNat + k) % 2 ^ 64) = none := by decide

/-- The last aligned pc, 2^64 - 4. -/
theorem witness_FetchAdmission_admitted :
    let s : State := { v12 with pc := 0xFFFFFFFFFFFFFFFC#64, prog := bytesAt (2 ^ 64 - 4) 0x20#8 0x80#8 0x94#8 0x64#8 }
    s.fault = none ∧ s.pc ≠ s.cfg.haltAddr ∧ s.pc.toNat % 4 = 0 ∧
      ∀ k < 4, readByte s.prog ((s.pc.toNat + k) % 2 ^ 64) ≠ none := by decide

/-- Vector F6. -/
theorem witness_WordsOutsideTheEncoding :
    let s : State := { v12 with prog := bytesAt 0x1000 0x1F#8 0x20#8 0x03#8 0xD5#8 }
    s.fault = none ∧ s.pc ≠ s.cfg.haltAddr ∧ fetch s = .ok 0xD503201F#32 ∧
      0xD503201F#32 &&& 0xFF3FE000#32 ≠ 0x64148000#32 := by decide

theorem witness_StepRunsTheDecodedInstruction : v12.fault = none ∧ v12.pc ≠ v12.cfg.haltAddr ∧
    fetch v12 = .ok 0x64948020#32 ∧ decode 0x64948020#32 = .ok (.fmaxnmp .s 0 1 0) := by decide

theorem witness_step_next : ∃ t, step v12 = .next t :=
  ⟨_, (step_of_fetch (w := 0x64948020#32) (by decide) (by decide) (by decide)).trans
    (exec_of_ready .s .single 0 1 0 v12 (by decide) rfl)⟩

/-- One state for each of the nine tests of R122, and one that passes them all. -/
theorem witness_StepFollowsThePriorityOrder :
    ({ v12 with cfg := { v12.cfg with haltAddr := 0x1000#64 } } : State).fault = none ∧
    step { v12 with cfg := { v12.cfg with haltAddr := 0x1000#64 } } = .refused (.ended 0x1000#64) ∧
    step { v12 with pc := 0x1002#64 } = .fault (.pcAlignment 0x1002#64) ∧
    step { v12 with prog := wordE7.take 3 } = .fault (.fetchFault 0x1000#64) ∧
    step { v12 with prog := bytesAt 0x1000 0x1F#8 0x20#8 0x03#8 0xD5#8 } = .refused (.notInSpec 0x1000#64 0xD503201F#32) ∧
    step (v12With false false 0x100#32) = .fault (.undefined 0x1000#64 0x64948020#32) ∧
    step { v12With true false 0x100#32 with prog := bytesAt 0x1000 0x20#8 0x80#8 0x14#8 0x64#8 } =
      .fault (.undefined 0x1000#64 0x64148020#32) ∧
    step (v12With true false 0x100#32) = .fault (.sveAccessTrap 0x1000#64) ∧
    step (v12With true true 0x100#32) = .refused (.notInSpec 0x1000#64 0x64948020#32) :=
  ⟨rfl, rfl, rfl, rfl, rfl, rfl, rfl, rfl, rfl⟩

/-- Vector F12: a misaligned pc at halt_addr, prog undefined there. -/
theorem witness_RunEnds :
    let s : State := { v12 with pc := 0x1002#64, cfg := { v12.cfg with haltAddr := 0x1002#64 }, prog := [] }
    s.fault = none ∧ s.pc = s.cfg.haltAddr ∧ step s = .refused (.ended s.pc) := ⟨rfl, rfl, rfl⟩

theorem witness_StopsArePrecise_fault :
    let s : State := { v12 with pc := 0x1002#64 }
    s.fault = none ∧ step s = .fault (.pcAlignment 0x1002#64) := ⟨rfl, rfl⟩
theorem witness_StopsArePrecise_refusal :
    let s := v12With true true 0x8000#32
    s.fault = none ∧ step s = .refused (.notInSpec 0x1000#64 0x64948020#32) := ⟨rfl, rfl⟩

/-- Vector F1's stop, recorded: a state after which no step follows. -/
theorem witness_NoStepFollowsAStop :
    let s := v12With false true 0#32
    (stepRecorded s).fault ≠ none ∧ s.fault = none ∧ step s = .fault (.undefined 0x1000#64 0x64948020#32) :=
  ⟨Option.some_ne_none _, rfl, rfl⟩

/-- Program A of 95_test_vectors.md at base 0x1000: the words 0x64948020 and 0x64948000, halt_addr = base + 8. -/
def programA : State :=
  { v12 with
    prog := wordE7 ++ bytesAt 0x1004 0x00#8 0x80#8 0x94#8 0x64#8
    cfg := { v12.cfg with haltAddr := 0x1008#64 } }

theorem witness_LaunchedProgram : programA.launchable 2 ∧
    ∀ j < 2, ∀ w, readWord programA.prog (programA.pc + BitVec.ofNat 64 (4 * j)) = some w →
      w &&& 0xFF3FE000#32 = 0x64148000#32 ∧ w.extractLsb' 22 2 ≠ 0#2 := by
  have h : ∀ j < 2, readWord programA.prog (programA.pc + BitVec.ofNat 64 (4 * j)) =
      some (if j = 0 then 0x64948020#32 else 0x64948000#32) := by decide
  refine ⟨by decide, fun j hj w hw => ?_⟩
  rw [h j hj] at hw
  cases hw
  split <;> decide

/-- The premises on a program are not met by a halt_addr elsewhere, a missing last byte or a misaligned pc. -/
theorem test_launchable_refuses :
    ¬ { programA with cfg := { programA.cfg with haltAddr := 0x100C#64 } }.launchable 2 ∧
    ¬ { programA with prog := programA.prog.take 7 }.launchable 2 ∧
    ¬ { programA with pc := 0x1002#64, cfg := { programA.cfg with haltAddr := 0x1006#64 } }.launchable 1 ∧
    ¬ { programA with cfg := { programA.cfg with haltAddr := 0x1000#64 } }.launchable 0 := by decide

theorem witness_AlignedRun :
    let s : State := { v12 with cfg := { v12.cfg with haltAddr := 0xFFFFFFFFFFFFFFFC#64 } }
    s.pc.toNat % 4 = 0 ∧ s.cfg.haltAddr.toNat % 4 = 0 := by decide

theorem witness_PlacedWord :
    decode 0x64948020#32 = .ok (.fmaxnmp .s 0 1 0) ∧
    ∀ k < 4, 0x0FFF ≠ (v12.withFetchWord 32 (0x64948020#32).toNat).pc.toNat + k := by decide

/-! ## Witnesses: FMAXNMP -/

theorem witness_UndefinedWithoutSve2 : (v12With false true 0#32).cfg.haveSve2 = false := by decide
theorem witness_DisabledSveTraps :
    (v12With true false 0#32).cfg.haveSve2 = true ∧ (v12With true false 0#32).cfg.sveEnabled = false ∧
    (v12With true true 0#32).cfg.haveSve2 = true ∧ (v12With true true 0#32).cfg.sveEnabled = true ∧
    trapBitsZero (v12With true true 0#32).fpcr ∧ Size.format .s = some .single := by decide
theorem witness_TrapEnabledFpcr : ∀ k ∈ [15, 12, 11, 10, 9, 8],
    let s := v12With true true (BitVec.twoPow 32 k)
    s.cfg.haveSve2 = true ∧ s.cfg.sveEnabled = true ∧ s.fpcr.getLsbD k = true := by decide

/-- V12 meets the hypotheses of every statement of a result: ready, a size with a format, the first and the last element active. -/
theorem witness_ready : v12.ready ∧ Size.format .s = some .single ∧ Size.s ≠ .reserved ∧
    (0 < v12.cfg.vl / FpFormat.single.width) ∧ (3 < v12.cfg.vl / FpFormat.single.width) ∧
    active v12 .single 0 0 = true ∧ active v12 .single 0 3 = true := by decide

/-- An even element inactive and an odd one active. -/
theorem witness_ResultElements_clauses : v12OnlyOne.ready ∧
    active v12OnlyOne .single 0 0 = false ∧ active v12OnlyOne .single 0 1 = true ∧ active v12OnlyOne .single 0 3 = false := by
  decide

theorem witness_PcAfterFmaxnmp_fault :
    exec (.fmaxnmp .s 0 1 0) (v12With true false 0#32) = .fault (.sveAccessTrap 0x1000#64) := rfl

/-- IOC from element 2 of V12 and IDC from element 2 of V14, under the reference numerics. -/
theorem witness_FpsrAccumulates : v12.cfg.fp = .reference ∧
    active v12 .single 0 2 = true ∧ (elementCall v12 .single 1 0 2).2.ioc = true ∧
    v14.ready ∧ active v14 .single 0 2 = true ∧ (elementCall v14 .single 1 0 2).2.idc = true := by decide +kernel

theorem witness_FmaxnmpFrame : (∃ t, exec (.fmaxnmp .s 0 1 0) v12 = .next t) ∧ (1 : ZReg) ≠ 0 ∧ v12.fpsr.getLsbD 7 = true :=
  ⟨⟨_, exec_of_ready .s .single 0 1 0 v12 (by decide) rfl⟩, by decide, by decide⟩

theorem witness_AllInactive :
    let s : State := { v12 with p := v12.p.set 0 0#256 }
    s.ready ∧ ∀ e < s.cfg.vl / FpFormat.single.width, active s .single 0 e = false := by decide

theorem witness_SameRegisterTwice : v12.ready ∧ 2 * 0 + 1 < v12.cfg.vl / FpFormat.single.width ∧
    2 * 1 + 1 < v12.cfg.vl / FpFormat.single.width ∧
    active v12 .single 0 (2 * 0) = true ∧ active v12 .single 0 (2 * 1 + 1) = true := by decide

/-- The longest vector: 128 half-precision elements, 126 and 127 the last pair. -/
theorem witness_IndicesStayInRange :
    let c : Config := { resetConfig with vq := 15 }
    126 < elements c.vl .half ∧ 126 % 2 = 0 ∧ 127 < elements c.vl .half ∧ 127 % 2 = 1 := by decide

/-- Every bit that is not the first of its element set: the same elements are active as in V12. -/
theorem witness_OtherPredicateBits :
    let p' := v12.p.set 0 0xFFFF#256
    p' ≠ v12.p ∧ (∀ e < v12.cfg.vl / FpFormat.single.width,
      p'[(0 : PReg)].getLsbD (e * (FpFormat.single.width / 8)) = v12.p[(0 : PReg)].getLsbD (e * (FpFormat.single.width / 8))) := by
  decide

/-- A state that differs from V12 in pc, FPSR, prog, another vector register and another predicate. -/
theorem witness_Footprint :
    let s' : State := { v12 with pc := 0#64, fpsr := 0#32, prog := [], z := v12.z.set 5 7#2048, p := v12.p.set 3 7#256 }
    s' ≠ v12 ∧ s'.cfg = v12.cfg ∧ s'.p[(0 : PReg)] = v12.p[(0 : PReg)] ∧ s'.z[(0 : ZReg)] = v12.z[(0 : ZReg)] ∧
      s'.z[(1 : ZReg)] = v12.z[(1 : ZReg)] ∧ s'.fpcr = v12.fpcr := by decide +kernel

theorem witness_OrderOfElements : [3, 1, 0, 2].Perm (List.range (elements 128 .single)) := by decide

/-! ## Witnesses: FPMaxNum, operands of the S vectors -/

/-- S25: minus infinity and the most negative finite half-precision number. -/
theorem witness_numbers : isNaN .half 0xFC00#16 = false ∧ isNaN .half 0xFBFF#16 = false ∧
    fpClass .half 0xFBFF#16 false ≠ .infinity := by decide
/-- S31: a quiet NaN and a denormal, flushed under FZ16 = 1. -/
theorem witness_OneQuietNaN : isQNaN .half 0x7E00#16 = true ∧ isNaN .half 0x0001#16 = false ∧
    flushControl .half 0x00080000#32 = true ∧ isDenormal .half 0x0001#16 = true := by decide
/-- S21, S18 and S15: two signalling NaNs, a number and a signalling NaN, two quiet NaNs. -/
theorem witness_NaNResults : isSNaN .half 0x7C01#16 = true ∧ isSNaN .half 0x3C00#16 = false ∧ isSNaN .half 0x7D00#16 = true ∧
    isQNaN .half 0x7E01#16 = true ∧ isQNaN .half 0x7E02#16 = true := by decide
/-- The largest denormal of single precision (vector V13). -/
theorem witness_FlushToZero : isDenormal .single 0x007FFFFF#32 = true ∧ flushControl .single 0x01000000#32 = true := by decide
/-- Vector F11: AHP = 1, RMode = 11 against FPCR = 0; for half precision FZ may differ, for single FZ16. -/
theorem witness_OtherFpcrFields :
    (0x05C00000#32).getLsbD 25 = (0#32).getLsbD 25 ∧ (0x05C00000#32).getLsbD 19 = (0#32).getLsbD 19 ∧
    (0x04C80000#32).getLsbD 25 = (0#32).getLsbD 25 ∧ (0x04C80000#32).getLsbD 24 = (0#32).getLsbD 24 := by decide
/-- S6: zeros of opposite sign, no flush and no DN. -/
theorem witness_ReferenceResultIsAnOperand : flushControl .half 0#32 = false ∧ fpcrDN 0#32 = false ∧
    isSNaN .half 0x0000#16 = false ∧ isSNaN .half 0x8000#16 = false := by decide
/-- S17: a NaN result, of a signalling NaN. -/
theorem witness_NaNResultIsQuiet : isNaN .half (fpMaxNumRef .half 0x7D00#16 0x3C00#16 0#32).1 = true := by decide
theorem witness_OperandAgainstItself : isNaN .half 0x8000#16 = false ∧ isDenormal .half 0x8000#16 = false ∧
    isQNaN .half 0x7E02#16 = true ∧ isSNaN .half 0x7D00#16 = true := by decide
/-- S21 with DN = 1: two different signalling NaNs are no exception then. -/
theorem witness_ReferenceIsCommutative :
    ¬ (fpcrDN 0x02000000#32 = false ∧ (0x7C01#16 ≠ 0xFD00#16) ∧
      ((isSNaN .half 0x7C01#16 = true ∧ isSNaN .half 0xFD00#16 = true) ∨
       (isQNaN .half 0x7C01#16 = true ∧ isQNaN .half 0xFD00#16 = true))) := by decide
theorem witness_PartA : isNaN .half 0x3C00#16 = false ∧ isDenormal .half 0x3C00#16 = false ∧
    isNaN .half 0x8000#16 = false ∧ isDenormal .half 0x8000#16 = false ∧
    isQNaN .half 0x7E01#16 = true ∧ isQNaN .half 0xFE01#16 = true ∧ isSNaN .half 0x7D00#16 = true := by decide

/-! ## Witness: the invariant -/

theorem witness_StepKeepsTheInvariant : v12.Inv :=
  ⟨by decide, fun n => by fin_cases n <;> decide +kernel, fun n => by fin_cases n <;> decide, by decide, by decide, by decide⟩

end Sys2Proof.Tests
end

section
/-! PROOF. What the operation of FMAXNMP does to each field of the state, and when an FMAXNMP or a step answers a next state. -/

namespace Sys2Proof.Machine

section OperationFields

variable (f : FpFormat) (pg : PReg) (zm zdn : ZReg) (s : State)

@[simp] theorem fmaxnmpOperation_cfg : (fmaxnmpOperation f pg zm zdn s).cfg = s.cfg := rfl
@[simp] theorem fmaxnmpOperation_z :
    (fmaxnmpOperation f pg zm zdn s).z = s.z.set zdn (clipZ s.cfg (fmaxnmpResult f pg zm zdn s).1) := rfl
@[simp] theorem fmaxnmpOperation_p : (fmaxnmpOperation f pg zm zdn s).p = s.p := rfl
@[simp] theorem fmaxnmpOperation_fpcr : (fmaxnmpOperation f pg zm zdn s).fpcr = s.fpcr := rfl
@[simp] theorem fmaxnmpOperation_fpsr :
    (fmaxnmpOperation f pg zm zdn s).fpsr = s.fpsr ||| flagBits (fmaxnmpResult f pg zm zdn s).2 := rfl
@[simp] theorem fmaxnmpOperation_pc : (fmaxnmpOperation f pg zm zdn s).pc = s.pc + 4#64 := rfl
@[simp] theorem fmaxnmpOperation_fault : (fmaxnmpOperation f pg zm zdn s).fault = s.fault := rfl
@[simp] theorem fmaxnmpOperation_prog : (fmaxnmpOperation f pg zm zdn s).prog = s.prog := rfl

/-- Of the Z registers the operation writes Z[dn] alone (40_fmaxnmp.md R82, R84). -/
theorem fmaxnmpOperation_getElem_z (n : ZReg) : (fmaxnmpOperation f pg zm zdn s).z[n] =
    if zdn = n then clipZ s.cfg (fmaxnmpResult f pg zm zdn s).1 else s.z[n] := by
  simp only [fmaxnmpOperation_z, Fin.getElem_fin, Vector.getElem_set, Fin.val_inj]

end OperationFields

/-- The reserved size, and no other, has no format (30_encoding.md R60). -/
theorem format_eq_none_iff (size : Size) : size.format = none ↔ size = .reserved := by
  cases size <;> simp [Size.format]

/-- FMAXNMP completes exactly in a ready state with a legal size, and then does its operation (40_fmaxnmp.md R90). -/
theorem exec_fmaxnmp_eq_next_iff {size : Size} {pg : PReg} {zm zdn : ZReg} {s t : State} :
    exec (.fmaxnmp size pg zm zdn) s = .next t ↔
      s.ready ∧ ∃ f, size.format = some f ∧ t = fmaxnmpOperation f pg zm zdn s := by
  constructor
  · intro h
    obtain ⟨_, f, _, _, _, hi, hf, hsve2, hsve, htrap, ht⟩ := exec_next h
    cases hi
    exact ⟨⟨hsve2, hsve, (trapBitsZero_iff s).2 htrap⟩, f, hf, ht⟩
  · rintro ⟨hready, f, hf, rfl⟩
    exact exec_of_ready size f pg zm zdn s hready hf

/-- A step that goes on does the operation of some FMAXNMP, from a state that records no stop. -/
theorem step_next_eq_operation {s t : State} (h : step s = .next t) :
    s.fault = none ∧ ∃ f pg zm zdn, t = fmaxnmpOperation f pg zm zdn s := by
  obtain ⟨hfault, _, _, _, _, _, hexec⟩ := step_next h
  obtain ⟨_, f, pg, zm, zdn, _, _, _, _, _, ht⟩ := exec_next hexec
  exact ⟨hfault, f, pg, zm, zdn, ht⟩

end Sys2Proof.Machine
end

section
/-! PROOF. The invariant of the machine is kept by the operation of FMAXNMP, and so by every step. -/

namespace Sys2Proof.Machine

/-- IOC and IDC are fields of FPSR: ORing them in sets no reserved bit (10_state.md R36). -/
theorem flagBits_reserved (fl : FpFlags) : flagBits fl &&& ~~~fpsrFields = 0#32 := by
  obtain ⟨ioc, idc⟩ := fl
  cases ioc <;> cases idc <;> decide

/-- Two values with no bit in a mask have none there when ORed. -/
theorem or_reserved {x y mask : Word} (hx : x &&& mask = 0#32) (hy : y &&& mask = 0#32) : (x ||| y) &&& mask = 0#32 := by
  rw [BitVec.and_comm] at hx hy ⊢
  rw [BitVec.and_or_distrib_left, hx, hy, BitVec.or_zero]

/-- The next word of an aligned address is aligned, at the top of memory too (10_state.md R39). -/
theorem aligned_add_four {a : Addr} (h : a.toNat % 4 = 0) : (a + 4#64).toNat % 4 = 0 := by
  rw [BitVec.toNat_add, BitVec.toNat_ofNat]
  omega

/-- The operation of FMAXNMP keeps the invariant: Z[dn] is clipped, FPSR gains flags only, the pc advances by a word. -/
theorem fmaxnmpOperation_inv {s : State} (hs : s.Inv) (f : FpFormat) (pg : PReg) (zm zdn : ZReg) :
    (fmaxnmpOperation f pg zm zdn s).Inv where
  progWf := hs.progWf
  zClipped n := by
    rw [fmaxnmpOperation_getElem_z, fmaxnmpOperation_cfg]
    split
    · exact clipZ_lt s.cfg _
    · exact hs.zClipped n
  pClipped := hs.pClipped
  fpcrReserved := hs.fpcrReserved
  fpsrReserved := by
    rw [fmaxnmpOperation_fpsr]
    exact or_reserved hs.fpsrReserved (flagBits_reserved _)
  pcAligned := aligned_add_four hs.pcAligned

/-- Settles O47: a step that goes on does an FMAXNMP's operation, which keeps each part of the invariant. -/
theorem stepKeepsTheInvariant : Obligations.StepKeepsTheInvariant := by
  intro s t hs hstep
  obtain ⟨_, f, pg, zm, zdn, rfl⟩ := step_next_eq_operation hstep
  exact fmaxnmpOperation_inv hs f pg zm zdn

end Sys2Proof.Machine
end

section
/-! PROOF. What a step and an FMAXNMP leave unchanged, the trap-enable bits of FPCR, and the predicate bits that are read. -/

namespace Sys2Proof.Machine

/-- Settles O17: a step that goes on does an FMAXNMP's operation, which writes Z, FPSR and pc alone. -/
theorem stepChangesOnlyZFpsrAndPc : Obligations.StepChangesOnlyZFpsrAndPc := by
  intro s t hstep
  obtain ⟨hfault, f, pg, zm, zdn, rfl⟩ := step_next_eq_operation hstep
  exact ⟨rfl, rfl, rfl, rfl, hfault, rfl⟩

/-- With every test before it passed, FMAXNMP is refused when a trap-enable bit is set (60_exceptions.md R121, R122). -/
theorem exec_of_not_trapBitsZero {size : Size} (pg : PReg) (zm zdn : ZReg) {s : State} (hsve2 : s.cfg.haveSve2 = true)
    (hsve : s.cfg.sveEnabled = true) (hsize : size ≠ .reserved) (htrap : ¬ trapBitsZero s.fpcr) :
    exec (.fmaxnmp size pg zm zdn) s = .refused (.notInSpec s.pc (encode (.fmaxnmp size pg zm zdn))) := by
  rw [trapBitsZero_iff] at htrap
  rcases execFmaxnmp_cases size pg zm zdn s with
    ⟨hundef, _⟩ | ⟨_, _, _, ⟨hdisabled, _⟩ | ⟨_, _, hrefused⟩ | ⟨_, hno, _⟩⟩
  · simp [hsve2, format_eq_none_iff, hsize] at hundef
  · simp [hsve] at hdisabled
  · exact hrefused
  · exact absurd hno htrap

/-- Settles O23: each of the six bits alone makes `trapBitsZero` false. -/
theorem trapEnabledFpcrIsRefused : Obligations.TrapEnabledFpcrIsRefused := by
  intro size pg zm zdn s k hsve2 hsve hsize hk hbit
  have htrap : ¬ trapBitsZero s.fpcr := fun hzero => by simp [hzero k hk] at hbit
  rw [exec_of_not_trapBitsZero pg zm zdn hsve2 hsve hsize htrap]
  exact ⟨rfl, rfl⟩

/-- Only bits 0 and 7 of the flags are ever set (10_state.md R36). -/
theorem getLsbD_flagBits_of_ne (fl : FpFlags) {k : Nat} (h0 : k ≠ 0) (h7 : k ≠ 7) : (flagBits fl).getLsbD k = false := by
  rw [← Bool.not_eq_true, getLsbD_flagBits]
  simp [h0, h7]

/-- Settles O27: Z[dn] is the one register the operation sets, and FPSR is ORed with IOC (bit 0) and IDC (bit 7). -/
theorem fmaxnmpFrame : Obligations.FmaxnmpFrame := by
  intro size pg zm zdn s t hexec
  obtain ⟨_, f, _, rfl⟩ := exec_fmaxnmp_eq_next_iff.1 hexec
  refine ⟨fun n hn => ?_, fun _ => rfl, rfl, rfl, rfl, fun _ => rfl, fun k h0 h7 => ?_, fun k hk => ?_⟩
  · rw [fmaxnmpOperation_getElem_z, if_neg hn.symm]
  · simp [getLsbD_flagBits_of_ne _ h0 h7]
  · simp [hk]

/-- The loop reads one predicate bit for each element (40_fmaxnmp.md R80, 00_scope.md R19). -/
theorem fmaxnmpLoop_congr_mask (fp : FpMaxNum) (f : FpFormat) (vl : Nat) {mask mask' : BitVec 256}
    (operand1 operand2 : BitVec 2048) (fpcr : Word)
    (h : ∀ e < elements vl f, elemP mask' e f.width = elemP mask e f.width) :
    fmaxnmpLoop fp f vl mask' operand1 operand2 fpcr = fmaxnmpLoop fp f vl mask operand1 operand2 fpcr := by
  refine List.foldl_ext _ _ _ fun _ e he => ?_
  simp only [fmaxnmpElement, h e (List.mem_range.1 he)]

/-- The result is the same with a predicate file that agrees with the old one on the element bits of P[g] (10_state.md R30). -/
theorem fmaxnmpResult_with_p {f : FpFormat} {pg : PReg} (zm zdn : ZReg) {s : State} {p' : Vector (BitVec 256) 16}
    (h : ∀ e < s.cfg.vl / f.width, (p'[pg]).getLsbD (e * (f.width / 8)) = (s.p[pg]).getLsbD (e * (f.width / 8))) :
    fmaxnmpResult f pg zm zdn { s with p := p' } = fmaxnmpResult f pg zm zdn s := by
  refine fmaxnmpLoop_congr_mask _ f s.cfg.vl _ _ _ fun e he => ?_
  rw [elemP_readP { s with p := p' } f pg e he, elemP_readP s f pg e he]
  exact h e he

/-- The operation commutes with such a change of the predicate file. -/
theorem fmaxnmpOperation_with_p {f : FpFormat} {pg : PReg} (zm zdn : ZReg) {s : State} {p' : Vector (BitVec 256) 16}
    (h : ∀ e < s.cfg.vl / f.width, (p'[pg]).getLsbD (e * (f.width / 8)) = (s.p[pg]).getLsbD (e * (f.width / 8))) :
    fmaxnmpOperation f pg zm zdn { s with p := p' } = { fmaxnmpOperation f pg zm zdn s with p := p' } := by
  simp only [fmaxnmpOperation, fmaxnmpResult_with_p zm zdn h]
  rfl

/-- Settles O31: readiness does not look at P, and the loop looks at the element bits of P[g] alone. -/
theorem otherPredicateBitsAreIgnored : Obligations.OtherPredicateBitsAreIgnored := by
  intro size f pg zm zdn s t p' hf hbits hexec
  obtain ⟨hready, f', hf', rfl⟩ := exec_fmaxnmp_eq_next_iff.1 hexec
  obtain rfl : f = f' := Option.some.inj (hf.symm.trans hf')
  refine ⟨rfl, ?_⟩
  rw [exec_of_ready size f pg zm zdn { s with p := p' } hready hf, fmaxnmpOperation_with_p zm zdn hbits]

end Sys2Proof.Machine
end

section
/-! PROOF. Instruction fetch: the byte order of the word, the four addresses mod 2^64, and when a fetch is admitted. -/

namespace Sys2Proof.Machine

/-- Bit `j` of a word is a bit of the byte it falls in, the byte of the lowest address first (20_memory.md R48). -/
theorem getLsbD_wordOfBytes (b0 b1 b2 b3 : Byte) (j : Nat) : (wordOfBytes b0 b1 b2 b3).getLsbD j =
    if j < 8 then b0.getLsbD j else if j < 16 then b1.getLsbD (j - 8)
    else if j < 24 then b2.getLsbD (j - 16) else b3.getLsbD (j - 24) := by
  simp only [wordOfBytes, BitVec.getLsbD_or, BitVec.getLsbD_shiftLeft, BitVec.getLsbD_setWidth]
  split_ifs <;> grind

/-- The bytes of a word made of four bytes are those bytes in their order (20_memory.md R48). -/
theorem bytesOfWord_wordOfBytes (b0 b1 b2 b3 : Byte) : bytesOfWord (wordOfBytes b0 b1 b2 b3) = [b0, b1, b2, b3] := by
  simp only [bytesOfWord, List.cons.injEq, and_true]
  refine ⟨?_, ?_, ?_, ?_⟩
  all_goals
    refine BitVec.eq_of_getLsbD_eq fun j hj => ?_
    rw [BitVec.getLsbD_extractLsb', getLsbD_wordOfBytes]
    grind

/-- The addresses of the bytes after the first of a word, which wrap at the top of memory (20_memory.md R50). -/
theorem toNat_wordAddrs (a : Addr) : (a + 1).toNat = (a.toNat + 1) % 2 ^ 64 ∧
    (a + 1 + 1).toNat = (a.toNat + 2) % 2 ^ 64 ∧ (a + 1 + 1 + 1).toNat = (a.toNat + 3) % 2 ^ 64 := by
  simp

/-- A word read fails exactly when one of the bytes at `a` to `a + 3`, taken mod 2^64, is undefined (20_memory.md R50). -/
theorem readWord_eq_none_iff_exists {m : Memory} {a : Addr} :
    readWord m a = none ↔ ∃ k < 4, readByte m ((a.toNat + k) % 2 ^ 64) = none := by
  obtain ⟨h1, h2, h3⟩ := toNat_wordAddrs a
  rw [readWord_eq_none, h1, h2, h3]
  simp only [Nat.exists_lt_succ_left, Nat.not_lt_zero, false_and, exists_false, or_false, Nat.add_zero, Nat.zero_add,
    Nat.mod_eq_of_lt a.isLt, Nat.reduceAdd]

/-- Four defined bytes are read as the word they make (20_memory.md R48). -/
theorem readWord_of_bytes {m : Memory} {a : Addr} {b0 b1 b2 b3 : Byte}
    (h0 : readByte m (a.toNat % 2 ^ 64) = some b0) (h1 : readByte m ((a.toNat + 1) % 2 ^ 64) = some b1)
    (h2 : readByte m ((a.toNat + 2) % 2 ^ 64) = some b2) (h3 : readByte m ((a.toNat + 3) % 2 ^ 64) = some b3) :
    readWord m a = some (wordOfBytes b0 b1 b2 b3) := by
  obtain ⟨ha1, ha2, ha3⟩ := toNat_wordAddrs a
  rw [Nat.mod_eq_of_lt a.isLt] at h0
  rw [← ha1] at h1
  rw [← ha2] at h2
  rw [← ha3] at h3
  exact readWord_eq_some.2 ⟨b0, b1, b2, b3, h0, h1, h2, h3, rfl⟩

/-- Settles O9: the word read is the one its four bytes make, and it has those bytes in the order of their addresses. -/
theorem fetchIsLittleEndian : Obligations.FetchIsLittleEndian := by
  refine ⟨fun m a b0 b1 b2 b3 h0 h1 h2 h3 => ⟨wordOfBytes b0 b1 b2 b3, readWord_of_bytes h0 h1 h2 h3, ?_⟩,
    fun m a h0 h1 h2 h3 => ⟨readWord_of_bytes h0 h1 h2 h3, by decide⟩⟩
  simpa [bytesOfWord] using bytesOfWord_wordOfBytes b0 b1 b2 b3

/-- A fault of the fetch is the step's (60_exceptions.md R122). -/
theorem step_of_fetch_error {s : State} {f : Fault} (hf : s.fault = none) (hh : s.pc ≠ s.cfg.haltAddr)
    (hw : fetch s = .error f) : step s = .fault f := by
  simp [step, hf, hh, hw, raise]

/-- A misaligned pc is a PCAlignment, whatever the memory holds (20_memory.md R50). -/
theorem fetch_of_misaligned {s : State} (h : s.pc.toNat % 4 ≠ 0) : fetch s = .error (.pcAlignment s.pc) :=
  if_pos h

/-- An aligned pc with no word to read is a FetchFault (20_memory.md R50). -/
theorem fetch_of_undefined {s : State} (ha : s.pc.toNat % 4 = 0) (hn : readWord s.prog s.pc = none) :
    fetch s = .error (.fetchFault s.pc) := by
  simp [fetch, ha, hn]

/-- Settles O10: the fetch by its three cases; a step passes the fetch's fault on, and `State.after` records it alone. -/
theorem fetchAdmission : Obligations.FetchAdmission := by
  intro s hfault hhalt
  refine ⟨fun hmis => ?_, fun halign hundef => ?_, fun halign hdef => ?_⟩
  · rw [step_of_fetch_error hfault hhalt (fetch_of_misaligned hmis)]
    exact ⟨rfl, rfl⟩
  · have hnone := readWord_eq_none_iff_exists.2 hundef
    rw [step_of_fetch_error hfault hhalt (fetch_of_undefined halign hnone)]
    exact ⟨rfl, rfl⟩
  · have hsome : readWord s.prog s.pc ≠ none := fun hnone =>
      have ⟨k, hk, hundef⟩ := readWord_eq_none_iff_exists.1 hnone
      hdef k hk hundef
    obtain ⟨w, hw⟩ := Option.ne_none_iff_exists'.1 hsome
    exact ⟨w, fetch_eq_ok.2 ⟨halign, hw⟩, hw⟩

end Sys2Proof.Machine
end

section
/-! PROOF. The size field and the encoded word as a number (30_encoding.md R58, R60, R72). -/

namespace Sys2Proof

/-- Reading the size field undoes writing it (30_encoding.md R60). -/
@[simp] theorem Size.ofBits_bits (size : Size) : Size.ofBits size.bits = size := by
  cases size <;> rfl

/-- Writing the size field undoes reading it: no two of its values are one size (30_encoding.md R60). -/
@[simp] theorem Size.bits_ofBits : ∀ b : BitVec 2, (Size.ofBits b).bits = b := by
  decide

/-- `esize = 8 << UInt(size)` as a product (30_encoding.md R60, R65). -/
theorem Size.esize_eq (size : Size) : size.esize = 8 * 2 ^ size.bits.toNat :=
  Nat.shiftLeft_eq 8 _

/-- The format that a size selects has elements of its `esize` (41_fpmaxnum_numerics.md R91). -/
theorem Size.width_format {size : Size} {f : FpFormat} (h : size.format = some f) : f.width = size.esize := by
  cases size <;> cases h <;> rfl

/-- A number below `2 ^ i` ORed onto a multiple of `2 ^ i` is added to it. -/
theorem or_eq_add_of_dvd {a b : Nat} (i : Nat) (ha : 2 ^ i ∣ a) (hb : b < 2 ^ i) : a ||| b = a + b := by
  obtain ⟨k, rfl⟩ := ha
  exact (Nat.two_pow_add_eq_or_of_lt hb k).symm

/-- The size field stands between the two groups of fixed bits (30_encoding.md R58). -/
theorem fixedMatch_or_size (size : Size) :
    0x64148000 ||| size.bits.toNat * 2 ^ 22 = 0x64148000 + size.bits.toNat * 2 ^ 22 := by
  cases size <;> decide

/-- The boxes of the format do not overlap, so the OR of the shifted fields is their sum (30_encoding.md R58, R72). -/
theorem toNat_encode (size : Size) {pg : PReg} (zm zdn : ZReg) (hpg : pg.val < 8) :
    (encode (.fmaxnmp size pg zm zdn)).toNat =
      0x64148000 + size.bits.toNat * 2 ^ 22 + pg.val * 2 ^ 10 + zm.val * 2 ^ 5 + zdn.val := by
  have hsize := size.bits.isLt
  have hzm := zm.isLt
  have hzdn := zdn.isLt
  calc (encode (.fmaxnmp size pg zm zdn)).toNat
    _ = 0x64148000 ||| size.bits.toNat * 2 ^ 22 ||| pg.val * 2 ^ 10 ||| zm.val * 2 ^ 5 ||| zdn.val := by
      simp only [encode, fixedMatch, BitVec.toNat_or, BitVec.toNat_shiftLeft, BitVec.toNat_setWidth, BitVec.toNat_ofNat,
        Nat.shiftLeft_eq]
      congr <;> omega
    _ = _ := by
      rw [fixedMatch_or_size, or_eq_add_of_dvd (b := pg.val * 2 ^ 10) 13 (by omega) (by omega),
        or_eq_add_of_dvd (b := zm.val * 2 ^ 5) 10 (by omega) (by omega),
        or_eq_add_of_dvd (b := zdn.val) 5 (by omega) (by omega)]

/-- Settles O6: the sum of the fields. -/
theorem encodedWordIsTheSumOfItsFields : Obligations.EncodedWordIsTheSumOfItsFields :=
  fun size _ zm zdn hpg => toNat_encode size zm zdn hpg

end Sys2Proof
end

section
/-! PROOF. Decoding (30_encoding.md R59 to R68): the fields, the fixed bits, which words decode, and both round trips. -/

namespace Sys2Proof

/-- The instruction that the four fields of a word spell, whatever its other bits (30_encoding.md R60 to R63). -/
def instrOfFields (w : Word) : Instr :=
  .fmaxnmp (Size.ofBits (w.extractLsb' 22 2)) (predOfField (w.extractLsb' 10 3)) (vectorOfField (w.extractLsb' 5 5))
    (vectorOfField (w.extractLsb' 0 5))

/-- A word decodes exactly when it has the fixed bits, and then to what its fields spell (30_encoding.md R66; log 12). -/
theorem decode_eq_ok_iff {w : Word} {i : Instr} : decode w = .ok i ↔ w &&& fixedMask = fixedMatch ∧ instrOfFields w = i := by
  simp only [decode, instrOfFields]
  split_ifs with h <;> simp [h]

/-- A word without the fixed bits is rejected (30_encoding.md R68). -/
theorem decode_of_not_fixed {w : Word} (h : w &&& fixedMask ≠ fixedMatch) : decode w = .error (.notInSpec w) :=
  if_neg h

/-- The predicate field holds P0 to P7 only (30_encoding.md R61). -/
theorem predOfField_lt (b : BitVec 3) : (predOfField b).val < 8 := b.isLt

/-- The fields of an encoded instruction spell it, the predicate being one that the 3-bit field can hold (30_encoding.md R61). -/
theorem instrOfFields_encode (size : Size) {pg : PReg} (zm zdn : ZReg) (hpg : pg.val < 8) :
    instrOfFields (encode (.fmaxnmp size pg zm zdn)) = .fmaxnmp size pg zm zdn := by
  have hw := toNat_encode size zm zdn hpg
  have hsize := size.bits.isLt
  have hzm := zm.isLt
  have hzdn := zdn.isLt
  have hsizeField : (encode (.fmaxnmp size pg zm zdn)).extractLsb' 22 2 = size.bits :=
    BitVec.eq_of_toNat_eq (by rw [BitVec.extractLsb'_toNat, Nat.shiftRight_eq_div_pow, hw]; omega)
  simp only [instrOfFields, hsizeField, Size.ofBits_bits, predOfField, vectorOfField, BitVec.extractLsb'_toNat,
    Nat.shiftRight_eq_div_pow, hw, Instr.fmaxnmp.injEq, Fin.ext_iff, true_and]
  omega

/-- Settles O2: an encoded word has the fixed bits, and its fields spell the instruction. -/
theorem decodeOfEncodeIsTheInstruction : Obligations.DecodeOfEncodeIsTheInstruction := fun size pg zm zdn hpg =>
  decode_eq_ok_iff.2 ⟨Laws.FixedBits.fmaxnmp size pg zm zdn, instrOfFields_encode size zm zdn hpg⟩

/-- A word with the fixed bits at 31:24 and 21:13 is the encoding of what its fields spell: the six boxes are all of it
(30_encoding.md R58). -/
theorem encode_instrOfFields {w : Word} (hhigh : w.extractLsb' 24 8 = 0b01100100#8)
    (hmid : w.extractLsb' 13 9 = 0b010100100#9) : encode (instrOfFields w) = w := by
  have hw := w.isLt
  apply BitVec.eq_of_toNat_eq
  rw [instrOfFields, toNat_encode _ _ _ (predOfField_lt _)]
  rw [← BitVec.toNat_inj] at hhigh hmid
  simp only [Size.bits_ofBits, predOfField, vectorOfField, BitVec.extractLsb'_toNat, Nat.shiftRight_eq_div_pow,
    BitVec.toNat_ofNat] at hhigh hmid ⊢
  omega

/-- The fixed bits by position: under the mask a word is the match value exactly when bits 31:24 are 01100100 and bits 21:13
are 010100100 (30_encoding.md R59). -/
theorem and_fixedMask_eq_fixedMatch_iff {w : Word} : w &&& fixedMask = fixedMatch ↔
    w.extractLsb' 24 8 = 0b01100100#8 ∧ w.extractLsb' 13 9 = 0b010100100#9 := by
  constructor
  · intro h
    have hslice (start len : Nat) : w.extractLsb' start len &&& fixedMask.extractLsb' start len =
        fixedMatch.extractLsb' start len := by
      rw [← BitVec.extractLsb'_and, h]
    have h8 : fixedMask.extractLsb' 24 8 = BitVec.allOnes 8 := by decide
    have h9 : fixedMask.extractLsb' 13 9 = BitVec.allOnes 9 := by decide
    have hhigh := hslice 24 8
    have hmid := hslice 13 9
    rw [h8, BitVec.and_allOnes] at hhigh
    rw [h9, BitVec.and_allOnes] at hmid
    exact ⟨hhigh, hmid⟩
  · rintro ⟨hhigh, hmid⟩
    rw [← encode_instrOfFields hhigh hmid]
    exact Laws.FixedBits.fmaxnmp ..

/-- Settles O3: a word that decodes has the fixed bits, so it is the encoding of what its fields spell. -/
theorem encodeOfDecodeIsTheWord : Obligations.EncodeOfDecodeIsTheWord := by
  intro w i hdecode
  obtain ⟨hfixed, rfl⟩ := decode_eq_ok_iff.1 hdecode
  obtain ⟨hhigh, hmid⟩ := and_fixedMask_eq_fixedMatch_iff.1 hfixed
  exact encode_instrOfFields hhigh hmid

/-- Settles O4: the fixed bits by position, the ones of the mask, and decoding as the test of the fixed bits. -/
theorem fixedBitsDecideWhatDecodes : Obligations.FixedBitsDecideWhatDecodes := by
  refine ⟨fun w => and_fixedMask_eq_fixedMatch_iff, by decide, fun w => ⟨?_, fun hfixed => ?_⟩⟩
  · rintro ⟨i, hdecode⟩
    exact (decode_eq_ok_iff.1 hdecode).1
  · exact ⟨instrOfFields w, decode_eq_ok_iff.2 ⟨hfixed, rfl⟩⟩

/-- Settles O5: the decoded instruction is what the fields spell, and `esize` follows from the size field. -/
theorem fieldsAreUnsignedSlices : Obligations.FieldsAreUnsignedSlices := by
  intro w size pg zm zdn hdecode
  obtain ⟨_, hfields⟩ := decode_eq_ok_iff.1 hdecode
  cases hfields
  refine ⟨Size.bits_ofBits _, rfl, rfl, rfl, ?_, fun f => Size.width_format⟩
  rw [Size.esize_eq, Size.bits_ofBits]

/-- Settles O1: the fixed bits and the four fields of each word, computed. -/
theorem wordsOfTheSpecDecode : Obligations.WordsOfTheSpecDecode := by
  unfold Obligations.WordsOfTheSpecDecode
  decide

end Sys2Proof
end

section
/-! PROOF. The assembler line (30_encoding.md R70 to R72). -/

namespace Sys2Proof

/-- An instruction is well formed exactly when its size has a letter and its predicate is P0 to P7 (30_encoding.md R71, R72). -/
theorem Instr.wellFormed_iff {size : Size} {pg : PReg} {zm zdn : ZReg} :
    (Instr.fmaxnmp size pg zm zdn).wellFormed = true ↔ size ≠ .reserved ∧ pg.val < 8 := by
  simp [Instr.wellFormed]

/-- A line is well formed exactly when its registers and letters agree and its instruction is well formed (30_encoding.md R72). -/
theorem AsmLine.wellFormed_iff {a : AsmLine} :
    a.wellFormed = true ↔ a.zdn = a.zdn2 ∧ a.t = a.t2 ∧ a.t = a.t3 ∧ a.t ≠ .reserved ∧ a.pg.val < 8 := by
  simp [AsmLine.wellFormed, Instr.wellFormed_iff, and_assoc]

/-- The assembler gives the instruction of a well-formed line and nothing for another (30_encoding.md R72). -/
theorem AsmLine.assemble_eq_some_iff {a : AsmLine} {i : Instr} :
    a.assemble = some i ↔ a.wellFormed = true ∧ i = .fmaxnmp a.t a.pg a.zm a.zdn := by
  simp only [AsmLine.assemble, Option.ite_none_right_eq_some, Option.some.injEq, eq_comm (b := i)]

/-- Settles O7: a line assembles when it is well formed, which makes it the line that its instruction disassembles to. -/
theorem assemblerLineRules : Obligations.AssemblerLineRules := by
  refine ⟨fun a i => ?_, fun a i hasm => ?_, fun i hi => ?_, fun i hdecode => ?_⟩
  · simp only [AsmLine.assemble_eq_some_iff, AsmLine.wellFormed_iff, and_assoc]
  · obtain ⟨hwf, rfl⟩ := AsmLine.assemble_eq_some_iff.1 hasm
    obtain ⟨hzdn, ht2, ht3, _, _⟩ := AsmLine.wellFormed_iff.1 hwf
    cases a
    cases hzdn
    cases ht2
    cases ht3
    rfl
  · obtain ⟨size, pg, zm, zdn⟩ := i
    obtain ⟨hsize, hpg⟩ := Instr.wellFormed_iff.1 hi
    exact AsmLine.assemble_eq_some_iff.2 ⟨AsmLine.wellFormed_iff.2 ⟨rfl, rfl, rfl, hsize, hpg⟩, rfl⟩
  · obtain ⟨_, rfl⟩ := decode_eq_ok_iff.1 hdecode
    decide

end Sys2Proof
end

section
/-! PROOF. A fetched word outside the encoding (30_encoding.md R68). -/

namespace Sys2Proof.Machine

/-- Settles O11: such a word is rejected by the decoder, and a step that fetches it refuses it. -/
theorem wordsOutsideTheEncodingAreRefused : Obligations.WordsOutsideTheEncodingAreRefused := by
  intro s w hfault hhalt hfetch hfixed
  rw [step_of_fetch hfault hhalt hfetch, decode_of_not_fixed hfixed]
  rfl

end Sys2Proof.Machine
end

section
/-! PROOF. The instruction as syntax beside a MOVPRFX, and the faults FMAXNMP raises (40_fmaxnmp.md R75, R76, R78, R89). -/

namespace Sys2Proof

/-- Which MOVPRFX an FMAXNMP admits before it (40_fmaxnmp.md R89). -/
theorem Instr.admitsMovprfx_iff {size : Size} {pg : PReg} {zm zdn : ZReg} {m : Movprfx} :
    (Instr.fmaxnmp size pg zm zdn).admitsMovprfx m = true ↔ m.predicated = false ∧ m.zd = zdn ∧ zdn ≠ zm := by
  simp [Instr.admitsMovprfx, and_assoc]

/-- Settles O8: the three requirements, of which `dn == m` breaks the third. -/
theorem movprfxRequirements : Obligations.MovprfxRequirements := by
  refine ⟨fun _ _ _ _ _ => Instr.admitsMovprfx_iff, fun size pg zdn m => Bool.eq_false_iff.2 fun h => ?_⟩
  obtain ⟨_, _, hne⟩ := Instr.admitsMovprfx_iff.1 h
  exact hne rfl

end Sys2Proof

namespace Sys2Proof.Machine

/-- Without SVE2, or with a size that has no format, FMAXNMP is Undefined before any other test (40_fmaxnmp.md R75, R76). -/
theorem exec_of_undefined {size : Size} (pg : PReg) (zm zdn : ZReg) {s : State}
    (h : s.cfg.haveSve2 = false ∨ size.format = none) :
    exec (.fmaxnmp size pg zm zdn) s = .fault (.undefined s.pc (encode (.fmaxnmp size pg zm zdn))) := by
  rcases execFmaxnmp_cases size pg zm zdn s with ⟨_, hundef⟩ | ⟨hsve2, f, hf, _⟩
  · exact hundef
  · simp [hsve2, hf] at h

/-- With the tests for Undefined passed and SVE disabled, FMAXNMP traps (40_fmaxnmp.md R78). -/
theorem exec_of_sve_disabled {size : Size} {f : FpFormat} (pg : PReg) (zm zdn : ZReg) {s : State}
    (hsve2 : s.cfg.haveSve2 = true) (hf : size.format = some f) (hsve : s.cfg.sveEnabled = false) :
    exec (.fmaxnmp size pg zm zdn) s = .fault (.sveAccessTrap s.pc) := by
  rcases execFmaxnmp_cases size pg zm zdn s with
    ⟨hundef, _⟩ | ⟨_, _, _, ⟨_, htrap⟩ | ⟨henabled, _⟩ | ⟨henabled, _⟩⟩
  · simp [hsve2, hf] at hundef
  · exact htrap
  all_goals simp [hsve] at henabled

/-- Settles O20: the first test fails, whatever the others would say. -/
theorem undefinedWithoutSve2 : Obligations.UndefinedWithoutSve2 := by
  intro size pg zm zdn s hsve2
  rw [exec_of_undefined pg zm zdn (.inl hsve2)]
  exact ⟨rfl, rfl⟩

/-- Settles O21: the reserved size has no format, with or without SVE2. -/
theorem reservedSizeIsUndefined : Obligations.ReservedSizeIsUndefined := by
  intro pg zm zdn s
  rw [exec_of_undefined pg zm zdn (.inr rfl)]
  exact ⟨rfl, rfl⟩

/-- Settles O22: a legal FMAXNMP meets the test of SVE first, and with SVE enabled its state is ready. -/
theorem disabledSveTraps : Obligations.DisabledSveTraps := by
  intro size f pg zm zdn s hsve2 hf
  refine ⟨fun hdisabled => ?_, fun henabled htrap => exec_of_ready size f pg zm zdn s ⟨hsve2, henabled, htrap⟩ hf⟩
  rw [exec_of_sve_disabled pg zm zdn hsve2 hf hdisabled]
  exact ⟨rfl, rfl⟩

/-- Settles O25: the operation ends by advancing the pc, and a fault is only recorded. -/
theorem pcAfterFmaxnmp : Obligations.PcAfterFmaxnmp := by
  intro size pg zm zdn s
  refine ⟨fun hready hsize => ?_, fun r hfault => ?_⟩
  · obtain ⟨f, hf⟩ := Option.ne_none_iff_exists'.1 (mt (format_eq_none_iff size).1 hsize)
    exact ⟨_, exec_of_ready size f pg zm zdn s hready hf, BitVec.toNat_add ..⟩
  · rw [hfault]
    rfl

end Sys2Proof.Machine
end

section
/-! PROOF. Z[dn] after FMAXNMP, element by element (40_fmaxnmp.md R81, R87). -/

namespace Sys2Proof.Machine

/-- The call of an even element takes a pair of Z[dn] (40_fmaxnmp.md R81). -/
theorem callOperands_of_even (s : State) (f : FpFormat) (zm zdn : ZReg) {e : Nat} (h : e % 2 = 0) :
    callOperands s f zm zdn e = (elem (s.readZ zdn) e f.width, elem (s.readZ zdn) (e + 1) f.width) :=
  if_pos h

/-- The call of an odd element takes a pair of Z[m] (40_fmaxnmp.md R81). -/
theorem callOperands_of_odd (s : State) (f : FpFormat) (zm zdn : ZReg) {e : Nat} (h : e % 2 ≠ 0) :
    callOperands s f zm zdn e = (elem (s.readZ zm) (e - 1) f.width, elem (s.readZ zm) e f.width) :=
  if_neg h

/-- With one register as both sources the two elements of a pair make one call (40_fmaxnmp.md R87). -/
theorem elementCall_odd_of_same (s : State) (f : FpFormat) (zdn : ZReg) (i : Nat) :
    elementCall s f zdn zdn (2 * i + 1) = elementCall s f zdn zdn (2 * i) := by
  rw [elementCall, elementCall, callOperands_of_odd s f zdn zdn (by omega), callOperands_of_even s f zdn zdn (by omega),
    Nat.add_sub_cancel]

/-- The predicate bit that the loop reads says whether the element is active (40_fmaxnmp.md R80, R81). -/
theorem elemP_readP_eq_active (s : State) (f : FpFormat) (pg : PReg) {e : Nat} (he : e < s.cfg.vl / f.width) :
    elemP (s.readP pg) e f.width = active s f pg e :=
  elemP_readP s f pg e he

/-- An element of Z[dn] after the operation: its call's result where it is active, else the old element (40_fmaxnmp.md R81). -/
theorem elem_readZ_fmaxnmpOperation (f : FpFormat) (pg : PReg) (zm zdn : ZReg) (s : State) {e : Nat}
    (he : e < s.cfg.vl / f.width) :
    elem ((fmaxnmpOperation f pg zm zdn s).readZ zdn) e f.width =
      if active s f pg e = true then (elementCall s f zm zdn e).1 else elem (s.readZ zdn) e f.width := by
  have hvl := element_in_vl s.cfg f e he
  have hmem : e ∈ List.range (elements s.cfg.vl f) := List.mem_range.2 he
  rw [fmaxnmpOperation_readZ, elem_clipZ _ _ _ _ hvl, fmaxnmpResult, fmaxnmpLoop,
    elem_foldl_fmaxnmpElement _ _ _ _ _ _ _ _ (hvl.trans (vl_bounds s.cfg).2) _ List.nodup_range,
    elemP_readP_eq_active s f pg he, pairOperands_eq_callOperands]
  simp only [hmem, true_and, elementCall]

/-- Settles O24: the operation's element, its call written out for an even and for an odd element. -/
theorem resultElementsInClosedForm : Obligations.ResultElementsInClosedForm := by
  intro size f pg zm zdn s hready hf
  refine ⟨_, exec_of_ready size f pg zm zdn s hready hf, fun e he => ?_⟩
  rw [elem_readZ_fmaxnmpOperation f pg zm zdn s he]
  change _ = if active s f pg e = false then _ else _
  cases active s f pg e with
  | false => rfl
  | true =>
    by_cases heven : e % 2 = 0
    · simp [elementCall, callOperands_of_even s f zm zdn heven, heven]
    · simp [elementCall, callOperands_of_odd s f zm zdn heven, heven]

/-- Settles O29: both elements of a pair make the call of the even one. -/
theorem sameRegisterTwiceGivesEqualPairs : Obligations.SameRegisterTwiceGivesEqualPairs := by
  intro size f pg zdn s hready hf
  refine ⟨_, exec_of_ready size f pg zdn zdn s hready hf, fun i hi => ?_⟩
  have hcall : (elementCall s f zdn zdn (2 * i)).1 = (fpMaxNumOf s.cfg.fp f (elem (s.readZ zdn) (2 * i) f.width)
      (elem (s.readZ zdn) (2 * i + 1) f.width) s.readFpcr).1 := by
    rw [elementCall, callOperands_of_even s f zdn zdn (by omega)]
  refine ⟨fun hactive => ?_, fun hactive => ?_⟩
  · rw [elem_readZ_fmaxnmpOperation f pg zdn zdn s (by omega), if_pos hactive, hcall]
  · rw [elem_readZ_fmaxnmpOperation f pg zdn zdn s hi, if_pos hactive, elementCall_odd_of_same, hcall]

/-- Signalling nothing sets no bit of FPSR (10_state.md R36). -/
@[simp] theorem flagBits_noFlags : flagBits noFlags = 0#32 := rfl

/-- A loop with no active element leaves the first source and signals nothing (40_fmaxnmp.md R87). -/
theorem fmaxnmpLoop_of_inactive (fp : FpMaxNum) (f : FpFormat) (vl : Nat) {mask : BitVec 256}
    (operand1 operand2 : BitVec 2048) (fpcr : Word) (h : ∀ e < elements vl f, elemP mask e f.width = false) :
    fmaxnmpLoop fp f vl mask operand1 operand2 fpcr = (operand1, noFlags) := by
  refine List.foldlRecOn (motive := (· = (operand1, noFlags))) _ _ rfl fun acc hacc e he => ?_
  simp [fmaxnmpElement, h e (List.mem_range.1 he), hacc]

/-- What any Z register reads as after the operation (40_fmaxnmp.md R82, R84). -/
theorem readZ_fmaxnmpOperation (f : FpFormat) (pg : PReg) (zm zdn : ZReg) (s : State) (n : ZReg) :
    (fmaxnmpOperation f pg zm zdn s).readZ n =
      if zdn = n then clipZ s.cfg (fmaxnmpResult f pg zm zdn s).1 else s.readZ n :=
  State.readZ_writeZ s zdn n _

/-- Settles O28: the loop's result is the old Z[dn], which is already clipped, and no flags. -/
theorem allInactiveChangesOnlyThePc : Obligations.AllInactiveChangesOnlyThePc := by
  intro size f pg zm zdn s hready hf hinactive
  have hresult : fmaxnmpResult f pg zm zdn s = (s.readZ zdn, noFlags) :=
    fmaxnmpLoop_of_inactive _ f _ _ _ _ fun e he => (elemP_readP_eq_active s f pg he).trans (hinactive e he)
  refine ⟨_, exec_of_ready size f pg zm zdn s hready hf, fun n => ?_, ?_, rfl, rfl, rfl, rfl, rfl, rfl⟩
  · rw [readZ_fmaxnmpOperation, hresult]
    split_ifs with hn
    · subst hn
      exact clipZ_clipZ s.cfg _
    · rfl
  · rw [fmaxnmpOperation_fpsr, hresult, flagBits_noFlags, BitVec.or_zero]

end Sys2Proof.Machine
end

section
/-! PROOF. The flags FMAXNMP signals (40_fmaxnmp.md R85). -/

namespace Sys2Proof.Machine

/-- The flags of the operation are those of the active elements' calls (40_fmaxnmp.md R85). -/
theorem flags_fmaxnmpResult (f : FpFormat) (pg : PReg) (zm zdn : ZReg) (s : State) :
    ((fmaxnmpResult f pg zm zdn s).2.ioc = true ↔
      ∃ e < s.cfg.vl / f.width, active s f pg e = true ∧ (elementCall s f zm zdn e).2.ioc = true) ∧
    ((fmaxnmpResult f pg zm zdn s).2.idc = true ↔
      ∃ e < s.cfg.vl / f.width, active s f pg e = true ∧ (elementCall s f zm zdn e).2.idc = true) := by
  obtain ⟨hioc, hidc⟩ := flags_foldl_fmaxnmpElement (fpMaxNumOf s.cfg.fp) f (s.readP pg) (s.readZ zdn) (s.readZ zm)
    s.readFpcr (s.readZ zdn, noFlags) (List.range (elements s.cfg.vl f))
  have hactive (flag : FpFlags → Bool) :
      (∃ e ∈ List.range (elements s.cfg.vl f), elemP (s.readP pg) e f.width = true ∧
        flag (elementCall s f zm zdn e).2 = true) ↔
      ∃ e < s.cfg.vl / f.width, active s f pg e = true ∧ flag (elementCall s f zm zdn e).2 = true :=
    exists_congr fun e => by
      rw [List.mem_range]
      exact and_congr_right fun he => by rw [elemP_readP_eq_active s f pg he]
  simp only [pairOperands_eq_callOperands, noFlags, Bool.false_eq_true, false_or] at hioc hidc
  exact ⟨hioc.trans (hactive FpFlags.ioc), hidc.trans (hactive FpFlags.idc)⟩

/-- Outside half precision the flush control is bit 24 of FPCR (41_fpmaxnum_numerics.md R97). -/
theorem flushControl_readFpcr_of_ne_half (s : State) {f : FpFormat} (hf : f ≠ .half) :
    flushControl f s.readFpcr = s.fpcr.getLsbD 24 := by
  cases f with
  | half => exact absurd rfl hf
  | single => simp [flushControl, fpcrFZ, State.readFpcr, fpcrFields]
  | double => simp [flushControl, fpcrFZ, State.readFpcr, fpcrFields]

/-- Settles O26: FPSR gains the operation's flags; under the reference those of a call are the reference's. -/
theorem fpsrAccumulatesActiveCalls : Obligations.FpsrAccumulatesActiveCalls := by
  intro size f pg zm zdn s hready hf
  refine ⟨_, exec_of_ready size f pg zm zdn s hready hf, fun k => ?_, fun hreference e => ?_⟩
  · obtain ⟨hioc, hidc⟩ := flags_fmaxnmpResult f pg zm zdn s
    rw [fmaxnmpOperation_fpsr, BitVec.getLsbD_or, Bool.or_eq_true, getLsbD_flagBits, hioc, hidc]
  · obtain ⟨hioc, hidc⟩ := fpMaxNumRef_flags f (callOperands s f zm zdn e).1 (callOperands s f zm zdn e).2 s.readFpcr
    rw [elementCall, hreference]
    refine ⟨hioc, hidc.trans (and_congr_right fun hhalf => ?_)⟩
    rw [flushControl_readFpcr_of_ne_half s hhalf]

end Sys2Proof.Machine
end

section
/-! PROOF. What FMAXNMP reads: the elements in range (40_fmaxnmp.md R83), its footprint (R84), and no order among them (R86). -/

namespace Sys2Proof.Machine

/-- A vector is a whole number of blocks of 128 bits, and a block a whole number of elements (40_fmaxnmp.md R83). -/
theorem elements_vl (c : Config) (f : FpFormat) : elements c.vl f = 128 / f.width * (c.vq.val + 1) := by
  cases f <;> simp only [elements, Config.vl, FpFormat.width] <;> omega

/-- The elements fill the vector (40_fmaxnmp.md R83). -/
theorem elements_mul_width (c : Config) (f : FpFormat) : elements c.vl f * f.width = c.vl := by
  have hblock : 128 / f.width * f.width = 128 := by cases f <;> rfl
  rw [elements_vl, Nat.mul_right_comm, hblock, Config.vl]

/-- The number of elements is even (40_fmaxnmp.md R83). -/
theorem elements_even (c : Config) (f : FpFormat) : elements c.vl f % 2 = 0 := by
  have hblock : 2 ∣ 128 / f.width := by cases f <;> decide
  rw [elements_vl]
  exact Nat.mod_eq_zero_of_dvd (hblock.mul_right _)

/-- Settles O30: the number of elements is that of a block times the blocks, and even, so an even element has a neighbour. -/
theorem indicesStayInRange : Obligations.IndicesStayInRange := by
  refine ⟨fun c f => ⟨elements_mul_width c f, elements_even c f, ?_, fun e he => ⟨fun h0 => ?_,
    fun h1 => ⟨by omega, element_in_vl c f e he⟩, predicate_bit_in_pl c f e he⟩⟩, rfl⟩
  · rw [elements_vl]
    cases f <;> exact Nat.mul_mod_right _ _
  · have heven := elements_even c f
    have hnext : e + 1 < elements c.vl f := by omega
    exact ⟨hnext, element_in_vl c f (e + 1) hnext⟩

/-- The result is the same in states that agree on the parameters, P[g], Z[dn], Z[m] and FPCR (40_fmaxnmp.md R84). -/
theorem fmaxnmpResult_congr (f : FpFormat) {pg : PReg} {zm zdn : ZReg} {s s' : State} (hcfg : s'.cfg = s.cfg)
    (hp : s'.p[pg] = s.p[pg]) (hzdn : s'.z[zdn] = s.z[zdn]) (hzm : s'.z[zm] = s.z[zm]) (hfpcr : s'.fpcr = s.fpcr) :
    fmaxnmpResult f pg zm zdn s' = fmaxnmpResult f pg zm zdn s := by
  simp only [fmaxnmpResult, State.readP, State.readZ, State.readFpcr, hcfg, hp, hzdn, hzm, hfpcr]

/-- Settles O32: readiness and the result look at the footprint alone; the bits ORed into FPSR are the result's flags. -/
theorem resultDependsOnlyOnTheFootprint : Obligations.ResultDependsOnlyOnTheFootprint := by
  intro size pg zm zdn s s' t hcfg hp hzdn hzm hfpcr hexec
  obtain ⟨hready, f, hf, rfl⟩ := exec_fmaxnmp_eq_next_iff.1 hexec
  have hready' : s'.ready := by rwa [State.ready, hcfg, hfpcr]
  have hresult := fmaxnmpResult_congr f hcfg hp hzdn hzm hfpcr
  refine ⟨_, exec_of_ready size f pg zm zdn s' hready' hf, ?_, flagBits (fmaxnmpResult f pg zm zdn s).2, rfl, ?_⟩
  · rw [fmaxnmpOperation_getElem_z, fmaxnmpOperation_getElem_z, if_pos rfl, if_pos rfl, hcfg, hresult]
  · rw [fmaxnmpOperation_fpsr, hresult]

/-- Writes of two different elements commute (00_scope.md R18). -/
theorem setElem_comm {n size : Nat} (v : BitVec n) {e e' : Nat} (x y : BitVec size) (h : e ≠ e') :
    setElem (setElem v e x) e' y = setElem (setElem v e' y) e x := by
  apply BitVec.eq_of_getLsbD_eq
  intro j hj
  have hdisjoint : ¬ ((e * size ≤ j ∧ j < e * size + size) ∧ (e' * size ≤ j ∧ j < e' * size + size)) := by
    rcases Nat.lt_or_gt_of_ne h with h | h <;>
    · have := Nat.mul_le_mul_right size h
      rw [Nat.succ_mul] at this
      omega
  simp only [getLsbD_setElem, hj, decide_true, Bool.true_and]
  split_ifs with h1 h2
  · exact absurd ⟨h2, h1⟩ hdisjoint
  all_goals rfl

/-- Flags are collected in any order (40_fmaxnmp.md R85). -/
theorem FpFlags.union_right_comm (a b c : FpFlags) : (a.union b).union c = (a.union c).union b := by
  simp only [FpFlags.union, Bool.or_right_comm]

/-- Two iterations of the loop commute: each reads the old sources and writes its own element (40_fmaxnmp.md R86). -/
theorem fmaxnmpElement_right_comm (fp : FpMaxNum) (f : FpFormat) (mask : BitVec 256) (operand1 operand2 : BitVec 2048)
    (fpcr : Word) (acc : BitVec 2048 × FpFlags) (e e' : Nat) :
    fmaxnmpElement fp f mask operand1 operand2 fpcr (fmaxnmpElement fp f mask operand1 operand2 fpcr acc e) e' =
      fmaxnmpElement fp f mask operand1 operand2 fpcr (fmaxnmpElement fp f mask operand1 operand2 fpcr acc e') e := by
  by_cases hne : e = e'
  · rw [hne]
  · simp only [fmaxnmpElement]
    split_ifs
    · rw [setElem_comm _ _ _ hne, FpFlags.union_right_comm]
    all_goals rfl

/-- Settles O33: a fold whose iterations commute gives the same for every order. -/
theorem orderOfElementsIsIrrelevant : Obligations.OrderOfElementsIsIrrelevant := by
  intro fp f vl mask operand1 operand2 fpcr order hperm
  exact hperm.foldl_eq' (fun e _ e' _ acc => fmaxnmpElement_right_comm fp f mask operand1 operand2 fpcr acc e e') _

end Sys2Proof.Machine
end

section
/-! PROOF. The magnitude and the key of an operand (41_fpmaxnum_numerics.md R99): fields, signs, bounds, and that a nonzero key
determines the operand. -/

namespace Sys2Proof.Machine

/-- `UInt(x[N-2:0])`, the magnitude field of an operand (41_fpmaxnum_numerics.md R99). -/
def fpMagnitude (f : FpFormat) (x : BitVec f.width) : Nat := (x.extractLsb' 0 (f.width - 1)).toNat

/-- The magnitude of an infinity: an all-ones exponent over a zero fraction. -/
def infMagnitude (f : FpFormat) : Nat := (2 ^ f.expBits - 1) * 2 ^ f.fracBits

theorem fpKey_eq (f : FpFormat) (fz : Bool) (x : BitVec f.width) : fpKey f fz x =
    if fpClass f x fz = .zero then 0 else if fpSign f x = true then -(fpMagnitude f x : ℤ) else fpMagnitude f x := rfl

/-- The magnitude field is the exponent above the fraction. -/
theorem fpMagnitude_eq (f : FpFormat) (x : BitVec f.width) :
    fpMagnitude f x = (fpExp f x).toNat * 2 ^ f.fracBits + (fpFrac f x).toNat := by
  have hwidth : 2 ^ (f.width - 1) = 2 ^ f.fracBits * 2 ^ f.expBits := by cases f <;> rfl
  simp only [fpMagnitude, fpExp, fpFrac, BitVec.extractLsb'_toNat, Nat.shiftRight_eq_div_pow, pow_zero,
    Nat.div_one]
  rw [hwidth, Nat.mod_mul, Nat.mul_comm, Nat.add_comm]

theorem fpMagnitude_eq_zero_iff (f : FpFormat) (x : BitVec f.width) :
    fpMagnitude f x = 0 ↔ fpExp f x = 0 ∧ fpFrac f x = 0 := by
  rw [fpMagnitude_eq, Nat.add_eq_zero_iff, Nat.mul_eq_zero, or_iff_left (by positivity)]
  simp [BitVec.toNat_eq]

theorem fpMagnitude_div (f : FpFormat) (x : BitVec f.width) : fpMagnitude f x / 2 ^ f.fracBits = (fpExp f x).toNat := by
  have hfrac := (fpFrac f x).isLt
  rw [fpMagnitude_eq, Nat.mul_comm, Nat.mul_add_div (by positivity), Nat.div_eq_of_lt hfrac, Nat.add_zero]

theorem fpMagnitude_mod (f : FpFormat) (x : BitVec f.width) : fpMagnitude f x % 2 ^ f.fracBits = (fpFrac f x).toNat := by
  rw [fpMagnitude_eq, Nat.mul_comm, Nat.mul_add_mod, Nat.mod_eq_of_lt (fpFrac f x).isLt]

/-- Sign and magnitude determine an operand. -/
theorem eq_of_sign_magnitude {f : FpFormat} {x y : BitVec f.width} (hsign : fpSign f x = fpSign f y)
    (hmagnitude : fpMagnitude f x = fpMagnitude f y) : x = y := by
  refine fp_ext f x y hsign (BitVec.eq_of_toNat_eq ?_) (BitVec.eq_of_toNat_eq ?_)
  · rw [← fpMagnitude_div, ← fpMagnitude_div, hmagnitude]
  · rw [← fpMagnitude_mod, ← fpMagnitude_mod, hmagnitude]

/-- The class of an infinity, and of nothing else (41_fpmaxnum_numerics.md R97). -/
theorem fpClass_eq_infinity_iff (f : FpFormat) (x : BitVec f.width) (fz : Bool) : fpClass f x fz = .infinity ↔
    fpExp f x = BitVec.allOnes f.expBits ∧ fpFrac f x = 0 := by
  have hne := allOnes_expBits_ne_zero f
  simp only [fpClass]
  cases fz <;> split_ifs <;> simp_all

@[simp] theorem fpClass_fpInfinity (f : FpFormat) (s fz : Bool) : fpClass f (fpInfinity f s) fz = .infinity := by
  obtain ⟨_, hexp, hfrac⟩ := fpInfinity_fields f s
  exact (fpClass_eq_infinity_iff _ _ _).2 ⟨hexp, hfrac⟩

@[simp] theorem fpClass_fpZero (f : FpFormat) (s fz : Bool) : fpClass f (fpZero f s) fz = .zero := by
  obtain ⟨_, hexp, hfrac⟩ := fpZero_fields f s
  exact (fpClass_eq_zero_iff _ _ _).2 ⟨hexp, .inl hfrac⟩

/-- An operand that is not of class Zero has a magnitude (41_fpmaxnum_numerics.md R97). -/
theorem fpMagnitude_pos {f : FpFormat} {fz : Bool} {x : BitVec f.width} (h : fpClass f x fz ≠ .zero) : 0 < fpMagnitude f x := by
  rw [Nat.pos_iff_ne_zero, Ne, fpMagnitude_eq_zero_iff]
  rintro ⟨hexp, hfrac⟩
  exact h ((fpClass_eq_zero_iff _ _ _).2 ⟨hexp, .inl hfrac⟩)

/-- Both infinities have the infinities' magnitude. -/
theorem fpMagnitude_eq_infMagnitude {f : FpFormat} {fz : Bool} {x : BitVec f.width} (h : fpClass f x fz = .infinity) :
    fpMagnitude f x = infMagnitude f := by
  obtain ⟨hexp, hfrac⟩ := (fpClass_eq_infinity_iff _ _ _).1 h
  simp [fpMagnitude_eq, hexp, hfrac, infMagnitude]

/-- The magnitude of a number is below that of an infinity. -/
theorem fpMagnitude_lt_infMagnitude {f : FpFormat} {fz : Bool} {x : BitVec f.width} (hnan : isNaN f x = false)
    (hinf : fpClass f x fz ≠ .infinity) : fpMagnitude f x < infMagnitude f := by
  have hexp : fpExp f x ≠ BitVec.allOnes f.expBits := by
    intro hexp
    by_cases hfrac : fpFrac f x = 0
    · exact hinf ((fpClass_eq_infinity_iff _ _ _).2 ⟨hexp, hfrac⟩)
    · simp [(isNaN_iff_fields f x).2 ⟨hexp, hfrac⟩] at hnan
  have hlt : (fpExp f x).toNat < 2 ^ f.expBits - 1 := by
    have hne : (fpExp f x).toNat ≠ 2 ^ f.expBits - 1 := fun h => hexp (BitVec.eq_of_toNat_eq (by simpa using h))
    have := (fpExp f x).isLt
    omega
  rwa [← fpMagnitude_div, Nat.div_lt_iff_lt_mul (by positivity)] at hlt

theorem fpKey_of_zero {f : FpFormat} {fz : Bool} {x : BitVec f.width} (h : fpClass f x fz = .zero) : fpKey f fz x = 0 := by
  rw [fpKey_eq, if_pos h]

theorem fpKey_neg_iff {f : FpFormat} {fz : Bool} {x : BitVec f.width} :
    fpKey f fz x < 0 ↔ fpClass f x fz ≠ .zero ∧ fpSign f x = true := by
  rw [fpKey_eq]
  split_ifs with hzero hsign
  · simp [hzero]
  · simpa [hzero, hsign] using fpMagnitude_pos hzero
  · simp [hsign]

theorem fpKey_pos_iff {f : FpFormat} {fz : Bool} {x : BitVec f.width} :
    0 < fpKey f fz x ↔ fpClass f x fz ≠ .zero ∧ fpSign f x = false := by
  rw [fpKey_eq]
  split_ifs with hzero hsign
  · simp [hzero]
  · simp [hsign]
  · simpa [hzero, hsign] using fpMagnitude_pos hzero

theorem fpKey_eq_zero_iff {f : FpFormat} {fz : Bool} {x : BitVec f.width} :
    fpKey f fz x = 0 ↔ fpClass f x fz = .zero := by
  refine ⟨fun h => ?_, fpKey_of_zero⟩
  by_contra hzero
  cases hsign : fpSign f x
  · exact (fpKey_pos_iff.2 ⟨hzero, hsign⟩).ne' h
  · exact (fpKey_neg_iff.2 ⟨hzero, hsign⟩).ne h

/-- Equal keys are equal operands, but for those of class Zero (41_fpmaxnum_numerics.md R104). -/
theorem eq_of_fpKey_eq {f : FpFormat} {fz : Bool} {x y : BitVec f.width} (h : fpKey f fz x = fpKey f fz y)
    (hzero : fpClass f x fz ≠ .zero) : x = y := by
  have hzero' : fpClass f y fz ≠ .zero := by rwa [Ne, ← fpKey_eq_zero_iff, ← h, fpKey_eq_zero_iff]
  have hx := fpMagnitude_pos hzero
  have hy := fpMagnitude_pos hzero'
  rw [fpKey_eq, fpKey_eq, if_neg hzero, if_neg hzero'] at h
  cases hsx : fpSign f x <;> cases hsy : fpSign f y <;> simp only [hsx, hsy, if_true, Bool.false_eq_true, if_false] at h
  case false.false => exact eq_of_sign_magnitude (hsx.trans hsy.symm) (by omega)
  case true.true => exact eq_of_sign_magnitude (hsx.trans hsy.symm) (by omega)
  all_goals omega

/-- The key of an infinity is the infinities' magnitude with its sign. -/
theorem fpKey_of_infinity {f : FpFormat} {fz : Bool} {x : BitVec f.width} (h : fpClass f x fz = .infinity) :
    fpKey f fz x = if fpSign f x = true then -(infMagnitude f : ℤ) else infMagnitude f := by
  rw [fpKey_eq, h, fpMagnitude_eq_infMagnitude h, if_neg (by decide)]

theorem infMagnitude_pos (f : FpFormat) : 0 < infMagnitude f := by cases f <;> decide

/-- The key of a number lies strictly between those of the infinities. -/
theorem fpKey_bounds_of_number {f : FpFormat} {fz : Bool} {x : BitVec f.width} (hnan : isNaN f x = false)
    (hinf : fpClass f x fz ≠ .infinity) : -(infMagnitude f : ℤ) < fpKey f fz x ∧ fpKey f fz x < infMagnitude f := by
  have hlt := fpMagnitude_lt_infMagnitude hnan hinf
  rw [fpKey_eq]
  split_ifs <;> constructor <;> omega

/-- The key of an operand that is no NaN lies between those of the infinities. -/
theorem fpKey_mem_Icc (fz : Bool) {f : FpFormat} {x : BitVec f.width} (hnan : isNaN f x = false) :
    fpKey f fz x ∈ Set.Icc (-(infMagnitude f : ℤ)) (infMagnitude f) := by
  by_cases hinf : fpClass f x fz = .infinity
  · rw [fpKey_of_infinity hinf, Set.mem_Icc]
    split_ifs <;> constructor <;> omega
  · obtain ⟨hlow, hhigh⟩ := fpKey_bounds_of_number hnan hinf
    exact ⟨hlow.le, hhigh.le⟩

end Sys2Proof.Machine
end

section
/-! PROOF. Key order is value order (41_fpmaxnum_numerics.md R99): the value of an operand is a strictly rising function of its key. -/

namespace Sys2Proof.Machine

/-- The size of a finite number of magnitude `k`, counted in the smallest denormal of a format with `F` fraction bits. -/
def ulps (F k : ℕ) : ℕ := if k / 2 ^ F = 0 then k % 2 ^ F else 2 ^ (k / 2 ^ F - 1) * (2 ^ F + k % 2 ^ F)

theorem ulps_mul_add (F e : ℕ) {r : ℕ} (hr : r < 2 ^ F) :
    ulps F (2 ^ F * e + r) = if e = 0 then r else 2 ^ (e - 1) * (2 ^ F + r) := by
  simp only [ulps, Nat.mul_add_div (Nat.two_pow_pos F), Nat.div_eq_of_lt hr, Nat.mul_add_mod, Nat.mod_eq_of_lt hr, Nat.add_zero]

/-- The next magnitude has the next fraction, or fraction 0 under the next exponent: it is larger in both cases. -/
theorem ulps_strictMono (F : ℕ) : StrictMono (ulps F) := by
  refine strictMono_nat_of_lt_succ fun k => ?_
  obtain ⟨e, r, hr, rfl⟩ : ∃ e r, r < 2 ^ F ∧ k = 2 ^ F * e + r :=
    ⟨k / 2 ^ F, k % 2 ^ F, Nat.mod_lt _ (Nat.two_pow_pos F), (Nat.div_add_mod _ _).symm⟩
  rw [ulps_mul_add F e hr]
  by_cases hnext : r + 1 < 2 ^ F
  · rw [Nat.add_assoc, ulps_mul_add F e hnext]
    split_ifs
    · exact Nat.lt_succ_self r
    · exact Nat.mul_lt_mul_of_pos_left (by omega) (Nat.two_pow_pos _)
  · have hcarry : 2 ^ F * e + r + 1 = 2 ^ F * (e + 1) + 0 := by rw [Nat.mul_succ]; omega
    rw [hcarry, ulps_mul_add F (e + 1) (Nat.two_pow_pos F), if_neg e.succ_ne_zero]
    cases e with
    | zero => simpa using hr
    | succ e =>
      simp only [Nat.add_one_ne_zero, if_false, Nat.add_sub_cancel, Nat.add_zero, Nat.pow_succ, Nat.mul_assoc]
      exact Nat.mul_lt_mul_of_pos_left (by omega) (Nat.two_pow_pos e)

/-- `ulps` of a key, with the key's sign. -/
def signedUlps (F : ℕ) (k : ℤ) : ℤ := k.sign * ulps F k.natAbs

@[simp] theorem ulps_zero (F : ℕ) : ulps F 0 = 0 := by simp [ulps]

@[simp] theorem signedUlps_natCast (F n : ℕ) : signedUlps F n = ulps F n := by
  rcases n.eq_zero_or_pos with rfl | hn
  · simp [signedUlps]
  · simp [signedUlps, Int.sign_natCast_of_ne_zero hn.ne']

@[simp] theorem signedUlps_neg (F : ℕ) (k : ℤ) : signedUlps F (-k) = -signedUlps F k := by
  simp [signedUlps]

theorem signedUlps_strictMono (F : ℕ) : StrictMono (signedUlps F) := by
  refine strictMono_of_odd_strictMonoOn_nonneg (signedUlps_neg F) ?_
  intro a ha b hb hab
  lift a to ℕ using ha
  lift b to ℕ using hb
  simpa using ulps_strictMono F (by exact_mod_cast hab : a < b)

/-- The value of the smallest denormal of a format. -/
def ulp (f : FpFormat) : ℚ := 2 ^ ((1 : ℤ) - f.bias) / 2 ^ f.fracBits

theorem ulp_pos (f : FpFormat) : 0 < ulp f := by
  unfold ulp
  positivity

/-- The rule's formula for a finite value counts smallest denormals (41_fpmaxnum_numerics.md R99). -/
theorem fpFinite_eq (f : FpFormat) (x : BitVec f.width) :
    fpFinite f x = (if fpSign f x = true then -1 else 1) * (ulp f * ulps f.fracBits (fpMagnitude f x)) := by
  rw [fpFinite, ulps, fpMagnitude_div, fpMagnitude_mod]
  congr 1
  have hexp : (fpExp f x).toNat = 0 ↔ fpExp f x = 0 := by simp [BitVec.toNat_eq]
  simp only [hexp]
  split_ifs with h
  · rw [ulp]; ring
  · obtain ⟨e, he⟩ := Nat.exists_eq_succ_of_ne_zero (hexp.not.2 h)
    have hpow : (2 : ℚ) ^ (((e + 1 : ℕ) : ℤ) - f.bias) = 2 ^ e * 2 ^ ((1 : ℤ) - f.bias) := by
      rw [← zpow_natCast, ← zpow_add₀ two_ne_zero]
      congr 1
      push_cast
      ring
    rw [he, Nat.succ_eq_add_one, hpow, ulp]
    push_cast
    field_simp

/-- The value that a key stands for: an infinity at and beyond the infinities' keys, between them a count of smallest denormals. -/
def keyValue (f : FpFormat) (k : ℤ) : WithBot (WithTop ℚ) :=
  if k ≤ -infMagnitude f then ⊥
  else if infMagnitude f ≤ k then ((⊤ : WithTop ℚ) : WithBot (WithTop ℚ))
  else ((ulp f * signedUlps f.fracBits k : ℚ) : WithTop ℚ)

theorem keyValue_of_finite {f : FpFormat} {k : ℤ} (hlow : -(infMagnitude f : ℤ) < k) (hhigh : k < infMagnitude f) :
    keyValue f k = ((ulp f * signedUlps f.fracBits k : ℚ) : WithTop ℚ) := by
  rw [keyValue, if_neg (not_le.2 hlow), if_neg (not_le.2 hhigh)]

theorem keyValue_strictMonoOn (f : FpFormat) :
    StrictMonoOn (keyValue f) (Set.Icc (-(infMagnitude f : ℤ)) (infMagnitude f)) := by
  rintro a ⟨ha, -⟩ b ⟨-, hb⟩ hab
  rcases hb.eq_or_lt with rfl | hb
  · rcases ha.eq_or_lt with rfl | ha
    · simp [keyValue, hab.not_ge]
    · rw [keyValue_of_finite ha hab, keyValue, if_neg (not_le.2 (ha.trans hab)), if_pos le_rfl]
      exact_mod_cast WithTop.coe_lt_top _
  · have hb' : -(infMagnitude f : ℤ) < b := ha.trans_lt hab
    rw [keyValue_of_finite hb' hb]
    rcases ha.eq_or_lt with rfl | ha
    · rw [keyValue, if_pos le_rfl]
      exact WithBot.bot_lt_coe _
    · rw [keyValue_of_finite ha (hab.trans hb)]
      have hulps : (signedUlps f.fracBits a : ℚ) < signedUlps f.fracBits b := by
        exact_mod_cast signedUlps_strictMono f.fracBits hab
      exact_mod_cast mul_lt_mul_of_pos_left hulps (ulp_pos f)

/-- The value of an operand that is no NaN is that of its key (41_fpmaxnum_numerics.md R99). -/
theorem fpValue_eq_keyValue (fz : Bool) {f : FpFormat} {x : BitVec f.width} (hnan : isNaN f x = false) :
    fpValue f fz x = keyValue f (fpKey f fz x) := by
  have hinf := infMagnitude_pos f
  cases hclass : fpClass f x fz
  case infinity =>
    rw [fpKey_of_infinity hclass, fpValue, hclass]
    split_ifs with hsign
    · rw [keyValue, if_pos le_rfl]
    · rw [keyValue, if_neg (by omega), if_pos le_rfl]
  case zero =>
    rw [fpKey_of_zero hclass, keyValue_of_finite (by omega) (by omega), fpValue, hclass]
    simp [signedUlps]
  case nonzero =>
    obtain ⟨hlow, hhigh⟩ := fpKey_bounds_of_number (fz := fz) hnan (by simp [hclass])
    rw [keyValue_of_finite hlow hhigh, fpValue, hclass, fpFinite_eq, fpKey_eq, hclass]
    cases fpSign f x <;> simp
  case qnan => simp [(isNaN_iff f x).2 (.inr ((fpClass_eq_qnan_iff f x fz).1 hclass))] at hnan
  case snan => simp [(isNaN_iff f x).2 (.inl ((fpClass_eq_snan_iff f x fz).1 hclass))] at hnan

/-- Values are ordered as keys are. -/
theorem fpValue_lt_iff (fz : Bool) {f : FpFormat} {x y : BitVec f.width} (hx : isNaN f x = false) (hy : isNaN f y = false) :
    fpValue f fz y < fpValue f fz x ↔ fpKey f fz y < fpKey f fz x := by
  rw [fpValue_eq_keyValue fz hx, fpValue_eq_keyValue fz hy]
  exact (keyValue_strictMonoOn f).lt_iff_lt (fpKey_mem_Icc fz hy) (fpKey_mem_Icc fz hx)

theorem isNaN_of_frac_eq_zero {f : FpFormat} {x : BitVec f.width} (h : fpFrac f x = 0) : isNaN f x = false := by
  simp [isNaN, h]

@[simp] theorem isNaN_fpInfinity (f : FpFormat) (s : Bool) : isNaN f (fpInfinity f s) = false :=
  isNaN_of_frac_eq_zero (fpInfinity_fields f s).2.2

@[simp] theorem isNaN_fpZero (f : FpFormat) (s : Bool) : isNaN f (fpZero f s) = false :=
  isNaN_of_frac_eq_zero (fpZero_fields f s).2.2

@[simp] theorem fpKey_fpInfinity (f : FpFormat) (s fz : Bool) :
    fpKey f fz (fpInfinity f s) = if s = true then -(infMagnitude f : ℤ) else infMagnitude f := by
  rw [fpKey_of_infinity (fpClass_fpInfinity f s fz), (fpInfinity_fields f s).1]

theorem fpValue_of_zero {f : FpFormat} {fz : Bool} {x : BitVec f.width} (h : fpClass f x fz = .zero) :
    fpValue f fz x = ((0 : ℚ) : WithTop ℚ) := by
  rw [fpValue, h]

/-- Settles O36: the value is a strictly rising function of the key, and the key of a number lies between the infinities' keys. -/
theorem keyOrderIsValueOrder : Obligations.KeyOrderIsValueOrder := by
  intro f fz
  refine ⟨fun x y hx hy => fpValue_lt_iff fz hx hy, fun x hx hinf => ?_, fun s => fpValue_of_zero (fpClass_fpZero f s fz)⟩
  obtain ⟨hlow, hhigh⟩ := fpKey_bounds_of_number hx hinf
  rw [fpValue_lt_iff fz hx (isNaN_fpInfinity f true), fpValue_lt_iff fz (isNaN_fpInfinity f false) hx]
  exact ⟨by simpa using hlow, by simpa using hhigh⟩

end Sys2Proof.Machine
end

section
/-! PROOF. The reference function by rows (41_fpmaxnum_numerics.md R110): the flush, the maximum of two numbers by their keys, the
decision table, and what its result can be. -/

namespace Sys2Proof.Machine

/-! ### The flush -/

/-- The flush settles the class: a flushed denormal is a zero of class Zero already (R98). -/
@[simp] theorem fpClass_fpFlush (f : FpFormat) (fz : Bool) (x : BitVec f.width) :
    fpClass f (fpFlush f fz x) fz = fpClass f x fz := by
  by_cases h : fpClass f x fz = .zero
  · rw [fpFlush_of_zero f x fz h, fpClass_fpZero, h]
  · rw [fpFlush_of_not_zero f x fz h]

@[simp] theorem fpKey_fpFlush (f : FpFormat) (fz : Bool) (x : BitVec f.width) : fpKey f fz (fpFlush f fz x) = fpKey f fz x := by
  by_cases h : fpClass f x fz = .zero
  · rw [fpKey_of_zero h, fpKey_of_zero (by rwa [fpClass_fpFlush])]
  · rw [fpFlush_of_not_zero f x fz h]

@[simp] theorem fpValue_fpFlush (f : FpFormat) (fz : Bool) (x : BitVec f.width) :
    fpValue f fz (fpFlush f fz x) = fpValue f fz x := by
  by_cases h : fpClass f x fz = .zero
  · rw [fpValue_of_zero h, fpValue_of_zero (by rwa [fpClass_fpFlush])]
  · rw [fpFlush_of_not_zero f x fz h]

@[simp] theorem fpFlush_fpFlush (f : FpFormat) (fz : Bool) (x : BitVec f.width) :
    fpFlush f fz (fpFlush f fz x) = fpFlush f fz x := by
  by_cases h : fpClass f x fz = .zero
  · rw [fpFlush_of_zero f (fpFlush f fz x) fz (by rwa [fpClass_fpFlush]), fpSign_fpFlush, fpFlush_of_zero f x fz h]
  · rw [fpFlush_of_not_zero f x fz h, fpFlush_of_not_zero f x fz h]

@[simp] theorem isSNaN_fpFlush (f : FpFormat) (fz : Bool) (x : BitVec f.width) : isSNaN f (fpFlush f fz x) = isSNaN f x := by
  rw [Bool.eq_iff_iff, ← fpClass_eq_snan_iff f _ fz, ← fpClass_eq_snan_iff f _ fz, fpClass_fpFlush]

@[simp] theorem isQNaN_fpFlush (f : FpFormat) (fz : Bool) (x : BitVec f.width) : isQNaN f (fpFlush f fz x) = isQNaN f x := by
  rw [Bool.eq_iff_iff, ← fpClass_eq_qnan_iff f _ fz, ← fpClass_eq_qnan_iff f _ fz, fpClass_fpFlush]

@[simp] theorem isNaN_fpFlush (f : FpFormat) (fz : Bool) (x : BitVec f.width) : isNaN f (fpFlush f fz x) = isNaN f x := by
  rw [Bool.eq_iff_iff, isNaN_iff, isNaN_iff, isSNaN_fpFlush, isQNaN_fpFlush]

@[simp] theorem fpFlush_false (f : FpFormat) (x : BitVec f.width) : fpFlush f false x = x := rfl

theorem fpFlush_of_not_denormal {f : FpFormat} {fz : Bool} {x : BitVec f.width} (h : ¬ (fz = true ∧ isDenormal f x = true)) :
    fpFlush f fz x = x := by
  rw [fpFlush, if_neg (by rwa [Bool.and_eq_true])]

theorem fpFlush_of_isNaN (fz : Bool) {f : FpFormat} {x : BitVec f.width} (h : isNaN f x = true) : fpFlush f fz x = x := by
  refine fpFlush_of_not_denormal fun ⟨_, hdenormal⟩ => allOnes_expBits_ne_zero f ?_
  rw [← ((isNaN_iff_fields f x).1 h).1, ((isDenormal_iff_fields f x).1 hdenormal).1]

/-- A flushed operand is a zero of the format exactly when the operand has class Zero (R110, row 6). -/
theorem extractLsb'_fpFlush_eq_zero_iff {f : FpFormat} {fz : Bool} {x : BitVec f.width} :
    (fpFlush f fz x).extractLsb' 0 (f.width - 1) = 0 ↔ fpClass f x fz = .zero := by
  have hmagnitude : (fpFlush f fz x).extractLsb' 0 (f.width - 1) = 0 ↔ fpMagnitude f (fpFlush f fz x) = 0 := by
    rw [fpMagnitude, BitVec.toNat_eq]
    rfl
  rw [hmagnitude]
  refine ⟨fun h => ?_, fun h => ?_⟩
  · by_contra hzero
    rw [← fpClass_fpFlush] at hzero
    exact (fpMagnitude_pos hzero).ne' h
  · obtain ⟨_, hexp, hfrac⟩ := fpZero_fields f (fpSign f x)
    rw [fpFlush_of_zero f x fz h]
    exact (fpMagnitude_eq_zero_iff _ _).2 ⟨hexp, hfrac⟩

/-! ### The maximum of two numbers -/

/-- The selected operand, a zero taking the sign `s`, is that operand flushed, when `s` is the sign of a zero selected. -/
theorem ite_fpZero_eq_fpFlush {f : FpFormat} {fz s : Bool} {x : BitVec f.width} (hsign : fpClass f x fz = .zero → s = fpSign f x) :
    (if fpClass f x fz = .zero then fpZero f s else x) = fpFlush f fz x := by
  split_ifs with hzero
  · rw [hsign hzero, fpFlush_of_zero f x fz hzero]
  · rw [fpFlush_of_not_zero f x fz hzero]

/-- The numeric selection by keys (R104, R105): two zeros give the AND of the signs; else the flushed operand of the larger key. A zero
selected against a nonzero number meets a negative one, so that it keeps its own sign. -/
theorem maxNumeric_eq (f : FpFormat) (fz : Bool) (a b : BitVec f.width) : maxNumeric f fz a b =
    if fpClass f a fz = .zero ∧ fpClass f b fz = .zero then fpZero f (fpSign f a && fpSign f b)
    else if fpKey f fz b < fpKey f fz a then fpFlush f fz a else fpFlush f fz b := by
  simp only [maxNumeric, gt_iff_lt]
  by_cases hboth : fpClass f a fz = .zero ∧ fpClass f b fz = .zero
  · rw [if_pos hboth, fpKey_of_zero hboth.1, fpKey_of_zero hboth.2, if_neg (lt_irrefl _), if_pos hboth.2]
  rw [if_neg hboth]
  by_cases hlt : fpKey f fz b < fpKey f fz a
  · rw [if_pos hlt, if_pos hlt]
    refine ite_fpZero_eq_fpFlush fun ha => ?_
    rw [fpKey_of_zero ha] at hlt
    rw [(fpKey_neg_iff.1 hlt).2, Bool.and_true]
  · rw [if_neg hlt, if_neg hlt]
    refine ite_fpZero_eq_fpFlush fun hb => ?_
    have hne : fpKey f fz a ≠ 0 := fpKey_eq_zero_iff.not.2 fun ha => hboth ⟨ha, hb⟩
    rw [fpKey_of_zero hb] at hlt
    rw [(fpKey_neg_iff.1 (lt_of_le_of_ne (not_lt.1 hlt) hne)).2, Bool.true_and]

@[simp] theorem maxNumeric_fpFlush (f : FpFormat) (fz : Bool) (a b : BitVec f.width) :
    maxNumeric f fz (fpFlush f fz a) (fpFlush f fz b) = maxNumeric f fz a b := by
  simp only [maxNumeric_eq, fpClass_fpFlush, fpKey_fpFlush, fpSign_fpFlush, fpFlush_fpFlush]

/-- Equal keys of two operands that are not both zeros are equal operands, so the order of the operands does not show (R104). -/
theorem maxNumeric_comm (f : FpFormat) (fz : Bool) (a b : BitVec f.width) : maxNumeric f fz a b = maxNumeric f fz b a := by
  rw [maxNumeric_eq, maxNumeric_eq, Bool.and_comm]
  refine ite_congr (propext and_comm) (fun _ => rfl) fun hboth => ?_
  rcases lt_trichotomy (fpKey f fz a) (fpKey f fz b) with hlt | heq | hgt
  · rw [if_pos hlt, if_neg hlt.not_gt]
  · have hzero : fpClass f a fz ≠ .zero := fun ha =>
      hboth ⟨fpKey_eq_zero_iff.1 (heq.symm.trans (fpKey_of_zero ha)), ha⟩
    rw [eq_of_fpKey_eq heq hzero]
  · rw [if_neg hgt.not_gt, if_pos hgt]

/-- The maximum of two operands is one of them, flushed, or +0 for two zeros of opposite sign (R111). -/
theorem maxNumeric_cases (f : FpFormat) (fz : Bool) (a b : BitVec f.width) :
    maxNumeric f fz a b = fpFlush f fz a ∨ maxNumeric f fz a b = fpFlush f fz b ∨
      (maxNumeric f fz a b = fpZero f false ∧ fpClass f a fz = .zero ∧ fpClass f b fz = .zero ∧ fpSign f a ≠ fpSign f b) := by
  rw [maxNumeric_eq]
  split_ifs with hboth
  · obtain ⟨ha, hb⟩ := hboth
    rw [fpFlush_of_zero f a fz ha]
    cases fpSign f a <;> cases fpSign f b <;> simp [ha, hb]
  · exact .inl rfl
  · exact .inr (.inl rfl)

theorem maxNumeric_self (f : FpFormat) (fz : Bool) (x : BitVec f.width) : maxNumeric f fz x x = fpFlush f fz x := by
  rcases maxNumeric_cases f fz x x with h | h | ⟨_, _, _, hsign⟩
  · exact h
  · exact h
  · exact absurd rfl hsign

theorem isNaN_maxNumeric {f : FpFormat} {a b : BitVec f.width} (fz : Bool) (ha : isNaN f a = false) (hb : isNaN f b = false) :
    isNaN f (maxNumeric f fz a b) = false := by
  rcases maxNumeric_cases f fz a b with h | h | ⟨h, _⟩ <;> simp [h, ha, hb]

/-- Minus infinity gives way to every number (R106). -/
theorem maxNumeric_negInfinity_left (fz : Bool) {f : FpFormat} {x : BitVec f.width} (h : isNaN f x = false) :
    maxNumeric f fz (fpInfinity f true) x = fpFlush f fz x := by
  have hlow := (fpKey_mem_Icc fz h).1
  rw [maxNumeric_eq, if_neg (by simp), if_neg (by simpa using hlow)]

/-- The value of the maximum is the larger value (R92, R111 (e)). -/
theorem fpValue_maxNumeric {f : FpFormat} {a b : BitVec f.width} (fz : Bool) (ha : isNaN f a = false) (hb : isNaN f b = false) :
    fpValue f fz (maxNumeric f fz a b) = max (fpValue f fz a) (fpValue f fz b) := by
  rw [maxNumeric_eq]
  split_ifs with hboth hlt
  · rw [fpValue_of_zero (fpClass_fpZero f _ fz), fpValue_of_zero hboth.1, fpValue_of_zero hboth.2, max_self]
  · rw [fpValue_fpFlush, max_eq_left ((fpValue_lt_iff fz ha hb).2 hlt).le]
  · rw [fpValue_fpFlush, max_eq_right (not_lt.1 ((fpValue_lt_iff fz ha hb).not.2 hlt))]

/-- Rows 6 to 8 of the decision table: two numbers, by their real values (R110). -/
theorem maxNumeric_rows {f : FpFormat} {a b : BitVec f.width} (fz : Bool) (ha : isNaN f a = false) (hb : isNaN f b = false) :
    maxNumeric f fz a b =
      if (fpFlush f fz a).extractLsb' 0 (f.width - 1) = 0 ∧ (fpFlush f fz b).extractLsb' 0 (f.width - 1) = 0 then
        fpZero f (fpSign f a && fpSign f b)
      else if fpValue f fz (fpFlush f fz b) < fpValue f fz (fpFlush f fz a) then fpFlush f fz a
      else fpFlush f fz b := by
  simp only [maxNumeric_eq, extractLsb'_fpFlush_eq_zero_iff, fpValue_fpFlush, fpValue_lt_iff fz ha hb]

/-! ### The decision table -/

theorem isNaN_eq_false {f : FpFormat} {x : BitVec f.width} (hs : ¬ isSNaN f x = true) (hq : ¬ isQNaN f x = true) :
    isNaN f x = false :=
  Bool.eq_false_iff.2 fun h => ((isNaN_iff f x).1 h).elim hs hq

/-- An operand that is no NaN is neither a signalling nor a quiet one. -/
theorem kinds_of_isNaN_eq_false {f : FpFormat} {x : BitVec f.width} (h : isNaN f x = false) :
    isSNaN f x = false ∧ isQNaN f x = false := by
  simp [isSNaN, isQNaN, h]

/-- The result by rows (R110), those of two numbers being `maxNumeric`: minus infinity in a quiet NaN's place gives way to the number. -/
theorem fpMaxNumRef_fst (f : FpFormat) (op1 op2 : BitVec f.width) (fpcr : Word) : (fpMaxNumRef f op1 op2 fpcr).1 =
    if isSNaN f op1 = true then nanOut f op1 true (fpcrDN fpcr)
    else if isSNaN f op2 = true then nanOut f op2 true (fpcrDN fpcr)
    else if isQNaN f op1 = true ∧ isQNaN f op2 = true then nanOut f op1 false (fpcrDN fpcr)
    else if isQNaN f op1 = true then fpFlush f (flushControl f fpcr) op2
    else if isQNaN f op2 = true then fpFlush f (flushControl f fpcr) op1
    else maxNumeric f (flushControl f fpcr) op1 op2 := by
  simp only [fpMaxNumRef_by_nans, apply_ite Prod.fst]
  refine ite_congr rfl (fun _ => rfl) fun hs1 => ite_congr rfl (fun _ => rfl) fun hs2 => ite_congr rfl (fun _ => rfl) fun hqq => ?_
  by_cases hq1 : isQNaN f op1 = true
  · have hq2 : ¬ isQNaN f op2 = true := fun hq2 => hqq ⟨hq1, hq2⟩
    rw [if_pos hq1, if_neg hq2, if_pos hq1, maxNumeric_negInfinity_left _ (isNaN_eq_false hs2 hq2)]
  · rw [if_neg hq1, if_neg hq1]
    split_ifs
    · rw [maxNumeric_comm, maxNumeric_negInfinity_left _ (isNaN_eq_false hs1 hq1)]
    · rfl

/-- A call's result is that of a NaN selected among the operands, or without a signalling NaN that of a number (R111). -/
theorem fpMaxNumRef_fst_cases (f : FpFormat) (op1 op2 : BitVec f.width) (fpcr : Word) :
    (isSNaN f op1 = true ∧ (fpMaxNumRef f op1 op2 fpcr).1 = nanOut f op1 true (fpcrDN fpcr)) ∨
    (isSNaN f op2 = true ∧ (fpMaxNumRef f op1 op2 fpcr).1 = nanOut f op2 true (fpcrDN fpcr)) ∨
    (isQNaN f op1 = true ∧ (fpMaxNumRef f op1 op2 fpcr).1 = nanOut f op1 false (fpcrDN fpcr)) ∨
    (isSNaN f op1 = false ∧ isSNaN f op2 = false ∧
      ((fpMaxNumRef f op1 op2 fpcr).1 = fpFlush f (flushControl f fpcr) op1 ∨
       (fpMaxNumRef f op1 op2 fpcr).1 = fpFlush f (flushControl f fpcr) op2 ∨
       ((fpMaxNumRef f op1 op2 fpcr).1 = fpZero f false ∧ fpClass f op1 (flushControl f fpcr) = .zero ∧
         fpClass f op2 (flushControl f fpcr) = .zero ∧ fpSign f op1 ≠ fpSign f op2))) := by
  rw [fpMaxNumRef_fst]
  split_ifs with hs1 hs2 hqq hq1 hq2
  · exact .inl ⟨hs1, rfl⟩
  · exact .inr (.inl ⟨hs2, rfl⟩)
  · exact .inr (.inr (.inl ⟨hqq.1, rfl⟩))
  all_goals refine .inr (.inr (.inr ⟨Bool.eq_false_iff.2 hs1, Bool.eq_false_iff.2 hs2, ?_⟩))
  · exact .inr (.inl rfl)
  · exact .inl rfl
  · exact maxNumeric_cases f _ op1 op2

theorem fpMaxNumRef_fst_of_numbers {f : FpFormat} {op1 op2 : BitVec f.width} (fpcr : Word) (h1 : isNaN f op1 = false)
    (h2 : isNaN f op2 = false) : (fpMaxNumRef f op1 op2 fpcr).1 = maxNumeric f (flushControl f fpcr) op1 op2 := by
  simp [fpMaxNumRef_fst, kinds_of_isNaN_eq_false h1, kinds_of_isNaN_eq_false h2]

/-- The NaN of a selected signalling NaN (R102). -/
theorem nanOut_quieted (f : FpFormat) (x : BitVec f.width) (dn : Bool) :
    nanOut f x true dn = if dn = true then fpDefaultNaN f else fpQuiet f x := rfl

/-- The NaN of a selected quiet NaN (R102). -/
theorem nanOut_kept (f : FpFormat) (x : BitVec f.width) (dn : Bool) :
    nanOut f x false dn = if dn = true then fpDefaultNaN f else x := rfl

/-- Settles O35: the table's rows are those of the algorithm, and its two-number rows compare keys, which is to compare values. -/
theorem referenceFollowsTheDecisionTable : Obligations.ReferenceFollowsTheDecisionTable := by
  intro f op1 op2 fpcr fz dn fl
  refine ⟨(fpMaxNumRef_fst f op1 op2 fpcr).trans ?_, fpMaxNumRef_flags f op1 op2 fpcr⟩
  exact ite_congr rfl (fun _ => nanOut_quieted f op1 dn) fun hs1 => ite_congr rfl (fun _ => nanOut_quieted f op2 dn) fun hs2 =>
    ite_congr rfl (fun _ => nanOut_kept f op1 dn) fun _ => ite_congr rfl (fun _ => rfl) fun hq1 =>
    ite_congr rfl (fun _ => rfl) fun hq2 => maxNumeric_rows fz (isNaN_eq_false hs1 hq1) (isNaN_eq_false hs2 hq2)

/-- Settles O37: two numbers give `maxNumeric`, whose value is the larger one. -/
theorem referenceGivesTheLargerValue : Obligations.ReferenceGivesTheLargerValue := by
  intro f op1 op2 fpcr h1 h2
  rw [fpMaxNumRef_fst_of_numbers fpcr h1 h2, fpValue_maxNumeric _ h1 h2]

end Sys2Proof.Machine
end

section
/-! PROOF. What the decision table gives: NaN operands, the flush, the bits of FPCR read, the results possible, and commutativity. -/

namespace Sys2Proof.Machine

/-- Settles O34: the packed fields of R103 are these words. -/
theorem defaultNaNValues : Obligations.DefaultNaNValues := ⟨rfl, rfl, rfl⟩

/-- Settles O38: rows 4 and 5 of the table, the flush written out. -/
theorem oneQuietNaNGivesTheNumber : Obligations.OneQuietNaNGivesTheNumber := by
  intro f q x fpcr hq hx
  obtain ⟨hsx, hqx⟩ := kinds_of_isNaN_eq_false hx
  have hflush : fpFlush f (flushControl f fpcr) x =
      if flushControl f fpcr = true ∧ isDenormal f x = true then fpZero f (fpSign f x) else x := by
    simp only [fpFlush, Bool.and_eq_true]
  rw [← hflush]
  constructor <;> simp [fpMaxNumRef_fst, isSNaN_of_isQNaN f q hq, hq, hsx, hqx]

/-- Settles O39: rows 1 to 3 of the table; IOC is signalled in rows 1 and 2 whatever DN is. -/
theorem naNResultsAndDefaultNaN : Obligations.NaNResultsAndDefaultNaN := by
  intro f x y fpcr
  refine ⟨fun hx => ?_, fun hx hy => ?_, fun hx hy => ?_⟩
  · rw [fpMaxNumRef_by_nans, if_pos hx]
    rfl
  · rw [fpMaxNumRef_by_nans, if_neg (by simp [hx]), if_pos hy]
    rfl
  · rw [fpMaxNumRef_fst, isSNaN_of_isQNaN f x hx, isSNaN_of_isQNaN f y hy, if_neg Bool.false_ne_true, if_neg Bool.false_ne_true,
      if_pos ⟨hx, hy⟩, nanOut_kept]

/-- The class of a denormal is decided by the flush control (R97, R98). -/
theorem fpClass_of_isDenormal {f : FpFormat} {x : BitVec f.width} (h : isDenormal f x = true) :
    fpClass f x true = .zero ∧ fpClass f x false = .nonzero := by
  obtain ⟨hexp, hfrac⟩ := (isDenormal_iff_fields f x).1 h
  simpa [fpClass, hexp] using hfrac

/-- The result depends on the flushed operands (R98): a NaN is not flushed, and the number rows flush. -/
theorem fpMaxNumRef_fst_fpFlush (f : FpFormat) (x y : BitVec f.width) (fpcr : Word) :
    (fpMaxNumRef f (fpFlush f (flushControl f fpcr) x) (fpFlush f (flushControl f fpcr) y) fpcr).1 =
      (fpMaxNumRef f x y fpcr).1 := by
  simp only [fpMaxNumRef_fst, isSNaN_fpFlush, isQNaN_fpFlush, fpFlush_fpFlush, maxNumeric_fpFlush]
  refine ite_congr rfl (fun hs1 => ?_) fun _ => ite_congr rfl (fun hs2 => ?_) fun _ => ite_congr rfl (fun hqq => ?_) fun _ => rfl
  · rw [fpFlush_of_isNaN _ ((isNaN_iff f x).2 (.inl hs1))]
  · rw [fpFlush_of_isNaN _ ((isNaN_iff f y).2 (.inl hs2))]
  · rw [fpFlush_of_isNaN _ ((isNaN_iff f x).2 (.inr hqq.1))]

/-- Settles O40: the class and the value of a flushed denormal, the table on flushed operands, and IDC. -/
theorem flushToZeroOfInputs : Obligations.FlushToZeroOfInputs := by
  intro f x y fpcr
  refine ⟨fun hdenormal => ?_, (fpMaxNumRef_fst_fpFlush f x y fpcr).symm, (fpMaxNumRef_flags f x y fpcr).2⟩
  obtain ⟨hflushed, hkept⟩ := fpClass_of_isDenormal hdenormal
  exact ⟨hflushed, fpValue_of_zero hflushed, fpSign_fpFlush f x true, hkept⟩

/-- FPCR enters a call as DN and the format's flush control alone (R109). -/
theorem fpMaxNumRef_congr_fpcr {f : FpFormat} (op1 op2 : BitVec f.width) {c c' : Word} (hdn : fpcrDN c = fpcrDN c')
    (hfz : flushControl f c = flushControl f c') : fpMaxNumRef f op1 op2 c = fpMaxNumRef f op1 op2 c' := by
  rw [fpMaxNumRef_by_nans, fpMaxNumRef_by_nans, hdn, hfz]

/-- Settles O41. DN shows on two negative quiet NaNs; the flush bit shows on two smallest denormals. -/
theorem otherFpcrFieldsHaveNoEffect : Obligations.OtherFpcrFieldsHaveNoEffect := by
  refine ⟨fun f op1 op2 c c' hdn hhalf hother => fpMaxNumRef_congr_fpcr op1 op2 hdn ?_, fun f => ?_⟩
  · cases f
    case half => exact hhalf rfl
    case single => exact hother (by decide)
    case double => exact hother (by decide)
  · cases f
    case half => exact ⟨⟨0xFE00#16, 0xFE00#16, by decide⟩, ⟨1#16, 1#16, by decide⟩⟩
    case single => exact ⟨⟨0xFFC00000#32, 0xFFC00000#32, by decide⟩, ⟨1#32, 1#32, by decide⟩⟩
    case double => exact ⟨⟨0xFFF8000000000000#64, 0xFFF8000000000000#64, by decide⟩, ⟨1#64, 1#64, by decide⟩⟩

/-- Settles O42: the cases of a result; with no flush and no DN, a quiet NaN selected is kept. -/
theorem referenceResultIsAnOperand : Obligations.ReferenceResultIsAnOperand := by
  intro f op1 op2 fpcr r fl
  have hcases := fpMaxNumRef_fst_cases f op1 op2 fpcr
  constructor
  · rcases hcases with ⟨_, h⟩ | ⟨_, h⟩ | ⟨hq1, h⟩ | ⟨_, _, h | h | ⟨h, _⟩⟩
    · rw [nanOut_quieted] at h
      split_ifs at h <;> simp [r, h]
    · rw [nanOut_quieted] at h
      split_ifs at h <;> simp [r, h]
    · have hkept : fl op1 = op1 := fpFlush_of_isNaN _ ((isNaN_iff f op1).2 (.inr hq1))
      rw [nanOut_kept] at h
      split_ifs at h <;> simp [r, h, hkept]
    all_goals simp [r, fl, h]
  · intro hfz hdn hs1 hs2
    rw [hfz, hdn, hs1, hs2] at hcases
    rcases hcases with ⟨h, _⟩ | ⟨h, _⟩ | ⟨_, h⟩ | ⟨_, _, hrows⟩
    · exact absurd h Bool.false_ne_true
    · exact absurd h Bool.false_ne_true
    · exact .inl h
    · exact hrows

theorem isQNaN_fpDefaultNaN (f : FpFormat) : isQNaN f (fpDefaultNaN f) = true := by cases f <;> decide

/-- The NaN of a selected NaN is quiet (R102). -/
theorem isQNaN_nanOut {f : FpFormat} {x : BitVec f.width} {quiet : Bool} (dn : Bool) (hnan : isNaN f x = true)
    (hquiet : quiet = true ∨ isQNaN f x = true) : isQNaN f (nanOut f x quiet dn) = true := by
  have hexp := ((isNaN_iff_fields f x).1 hnan).1
  rw [nanOut]
  split_ifs with _ hq
  · exact isQNaN_fpDefaultNaN f
  · exact isQNaN_fpQuiet f x hexp
  · exact hquiet.resolve_left hq

/-- Settles O43: two numbers give a number; a NaN result is selected and quiet, or an operand of a call without a signalling NaN. -/
theorem naNResultIsQuietAndHasACause : Obligations.NaNResultIsQuietAndHasACause := by
  intro f op1 op2 fpcr
  refine ⟨fun h1 h2 => ?_, fun hnan => ?_⟩
  · rw [fpMaxNumRef_fst_of_numbers fpcr h1 h2, isNaN_maxNumeric _ h1 h2]
  · rcases fpMaxNumRef_fst_cases f op1 op2 fpcr with ⟨hs1, h⟩ | ⟨hs2, h⟩ | ⟨hq1, h⟩ | ⟨hs1, hs2, hrows⟩
    · rw [h, isQNaN_nanOut _ ((isNaN_iff f op1).2 (.inl hs1)) (.inl rfl)]
    · rw [h, isQNaN_nanOut _ ((isNaN_iff f op2).2 (.inl hs2)) (.inl rfl)]
    · rw [h, isQNaN_nanOut _ ((isNaN_iff f op1).2 (.inr hq1)) (.inr hq1)]
    · refine ((isNaN_iff f _).1 hnan).resolve_left ?_
      rcases hrows with h | h | ⟨h, _⟩
      · simp [h, hs1]
      · simp [h, hs2]
      · simp [h] at hnan

/-- Settles O44: a number is the maximum of itself and itself; the NaN rows are those of O39. -/
theorem operandAgainstItself : Obligations.OperandAgainstItself := by
  intro f x fpcr
  obtain ⟨hsnan, _, hqnan⟩ := naNResultsAndDefaultNaN f x x fpcr
  refine ⟨fun hx hflush => ?_, fun hq => hqnan hq hq, fun hs => congrArg Prod.fst (hsnan hs)⟩
  rw [fpMaxNumRef_fst_of_numbers fpcr hx hx, maxNumeric_self, fpFlush_of_not_denormal hflush]

/-- Under DN every selected NaN gives the same result (R102). -/
theorem nanOut_congr {f : FpFormat} {x y : BitVec f.width} {dn : Bool} (quiet : Bool) (h : dn = false → x = y) :
    nanOut f x quiet dn = nanOut f y quiet dn := by
  cases dn
  case true => rfl
  case false => rw [h rfl]

theorem FpFlags.eq_of_fields {a b : FpFlags} (hioc : a.ioc = b.ioc) (hidc : a.idc = b.idc) : a = b := by
  obtain ⟨_, _⟩ := a
  obtain ⟨_, _⟩ := b
  rw [FpFlags.mk.injEq]
  exact ⟨hioc, hidc⟩

/-- The flags do not depend on the order of the operands (R108). -/
theorem fpMaxNumRef_snd_comm (f : FpFormat) (x y : BitVec f.width) (fpcr : Word) :
    (fpMaxNumRef f x y fpcr).2 = (fpMaxNumRef f y x fpcr).2 := by
  obtain ⟨hioc, hidc⟩ := fpMaxNumRef_flags f x y fpcr
  obtain ⟨hioc', hidc'⟩ := fpMaxNumRef_flags f y x fpcr
  rw [or_comm] at hioc'
  rw [or_comm (a := isDenormal f y = true)] at hidc'
  exact FpFlags.eq_of_fields (Bool.eq_iff_iff.2 (hioc.trans hioc'.symm)) (Bool.eq_iff_iff.2 (hidc.trans hidc'.symm))

/-- Settles O45: of the rows only two NaNs of one kind look at the order, and they give one result under DN or for equal NaNs. -/
theorem referenceIsCommutativeButForTwoNaNs : Obligations.ReferenceIsCommutativeButForTwoNaNs := by
  intro f x y fpcr hexception
  have hsame : (isSNaN f x = true ∧ isSNaN f y = true) ∨ (isQNaN f x = true ∧ isQNaN f y = true) →
      fpcrDN fpcr = false → x = y := fun hkind hdn => by_contra fun hne => hexception ⟨hdn, hne, hkind⟩
  refine Prod.ext ?_ (fpMaxNumRef_snd_comm f x y fpcr)
  rw [fpMaxNumRef_fst, fpMaxNumRef_fst]
  rw [maxNumeric_comm f _ y x]
  cases hsx : isSNaN f x <;> cases hsy : isSNaN f y
  case true.true => simp [nanOut_congr true (hsame (.inl ⟨hsx, hsy⟩))]
  case true.false | false.true => simp
  case false.false =>
    cases hqx : isQNaN f x <;> cases hqy : isQNaN f y
    case true.true => simp [nanOut_congr false (hsame (.inr ⟨hqx, hqy⟩))]
    all_goals simp

end Sys2Proof.Machine
end

section
/-! PROOF. Recorded stops (60_exceptions.md R119). -/

namespace Sys2Proof.Machine

/-- A step of a state that records a stop answers that stop (log 6). -/
theorem step_of_stopped {s : State} {stop : Stop} (h : s.fault = some stop) : step s = stopped stop := by
  simp [step, h]

/-- A stop is no next state. -/
theorem stopped_ne_next (stop : Stop) (t : State) : stopped stop ≠ .next t := by
  cases stop <;> exact nofun

/-- Recording the stop that a state already records changes nothing (60_exceptions.md R119). -/
theorem State.after_stopped {s : State} {stop : Stop} (h : s.fault = some stop) : s.after (stopped stop) = s := by
  have hsame : { s with fault := some stop } = s := by rw [← h]
  match stop with
  | .fault _ => exact hsame
  | .refusal (.ended _) => rfl
  | .refusal (.notInSpec _ _) => exact hsame
  | .refusal (.notModelled _) => exact hsame

/-- Settles O50: a recorded stop is answered again and recorded again; a first one is recorded alone, by `State.after`. -/
theorem noStepFollowsAStop : Obligations.NoStepFollowsAStop := by
  refine ⟨fun s hfault => ?_, fun s f _ hstep => ?_, fun s pc w _ hstep => ?_⟩
  · obtain ⟨stop, hstop⟩ := Option.ne_none_iff_exists'.1 hfault
    rw [stepRecorded, step_of_stopped hstop]
    exact ⟨stopped_ne_next stop, State.after_stopped hstop, fun ⟨_, hnone⟩ => hfault hnone⟩
  · rw [stepRecorded, hstep, State.after_fault]
  · rw [stepRecorded, hstep, State.after_notInSpec]

end Sys2Proof.Machine
end

section
/-! PROOF. The order of the tests within a step (60_exceptions.md R122), and when all of them pass. -/

namespace Sys2Proof

/-- A field of 00, and no other, spells a size without a format (30_encoding.md R60). -/
theorem Size.format_ofBits_eq_none_iff : ∀ b : BitVec 2, (Size.ofBits b).format = none ↔ b = 0#2 := by
  decide

/-- The format that a size field other than 00 selects (30_encoding.md R60, 41_fpmaxnum_numerics.md R91). -/
theorem Size.format_ofBits : ∀ b : BitVec 2, b ≠ 0#2 →
    (Size.ofBits b).format = some (if b = 1#2 then .half else if b = 2#2 then .single else .double) := by
  decide

/-- The predicate field as a register number (30_encoding.md R61). -/
theorem predOfField_eq_ofNat (b : BitVec 3) : predOfField b = Fin.ofNat 16 b.toNat :=
  Fin.ext (Nat.mod_eq_of_lt (predOfField b).isLt).symm

/-- A vector-register field as a register number (30_encoding.md R62, R63). -/
theorem vectorOfField_eq_ofNat (b : BitVec 5) : vectorOfField b = Fin.ofNat 32 b.toNat :=
  Fin.ext (Nat.mod_eq_of_lt b.isLt).symm

/-- A word with the fixed bits is the encoding of what its fields spell (30_encoding.md R58, R59). -/
theorem encode_instrOfFields_of_fixed {w : Word} (h : w &&& fixedMask = fixedMatch) : encode (instrOfFields w) = w :=
  encodeOfDecodeIsTheWord w _ (decode_eq_ok_iff.2 ⟨h, rfl⟩)

end Sys2Proof

namespace Sys2Proof.Machine

/-- At halt_addr the run has ended, before any fetch (70_reset_and_hazards.md R143; log 6). -/
theorem step_at_haltAddr {s : State} (hfault : s.fault = none) (hhalt : s.pc = s.cfg.haltAddr) :
    step s = .refused (.ended s.pc) := by
  simp [step, hfault, hhalt, refuse]

/-- Past the first four tests of R122 a step executes what the fields of the fetched word spell. -/
theorem step_of_fixed {s : State} {w : Word} (hfault : s.fault = none) (hhalt : s.pc ≠ s.cfg.haltAddr)
    (hfetch : fetch s = .ok w) (hfixed : w &&& fixedMask = fixedMatch) : step s = exec (instrOfFields w) s := by
  rw [step_of_fetch hfault hhalt hfetch, decode_eq_ok_iff.2 ⟨hfixed, rfl⟩]

/-- Tests (5) and (6) of R122: the fault records the word fetched (40_fmaxnmp.md R75, R76). -/
theorem exec_instrOfFields_of_undefined {s : State} {w : Word} (hfixed : w &&& fixedMask = fixedMatch)
    (h : s.cfg.haveSve2 = false ∨ w.extractLsb' 22 2 = 0#2) : exec (instrOfFields w) s = .fault (.undefined s.pc w) := by
  rw [← Size.format_ofBits_eq_none_iff] at h
  have hundef := exec_of_undefined (predOfField (w.extractLsb' 10 3)) (vectorOfField (w.extractLsb' 5 5))
    (vectorOfField (w.extractLsb' 0 5)) h
  rwa [← instrOfFields, encode_instrOfFields_of_fixed hfixed] at hundef

/-- Test (7) of R122 (40_fmaxnmp.md R78). -/
theorem exec_instrOfFields_of_sve_disabled {s : State} {w : Word} (hsve2 : s.cfg.haveSve2 = true)
    (hsize : w.extractLsb' 22 2 ≠ 0#2) (hsve : s.cfg.sveEnabled = false) :
    exec (instrOfFields w) s = .fault (.sveAccessTrap s.pc) :=
  exec_of_sve_disabled _ _ _ hsve2 (Size.format_ofBits _ hsize) hsve

/-- Test (8) of R122: the refusal records the word fetched (60_exceptions.md R121). -/
theorem exec_instrOfFields_of_not_trapBitsZero {s : State} {w : Word} (hfixed : w &&& fixedMask = fixedMatch)
    (hsve2 : s.cfg.haveSve2 = true) (hsize : w.extractLsb' 22 2 ≠ 0#2) (hsve : s.cfg.sveEnabled = true)
    (htrap : ¬ trapBitsZero s.fpcr) : exec (instrOfFields w) s = .refused (.notInSpec s.pc w) := by
  rw [Ne, ← Size.format_ofBits_eq_none_iff, format_eq_none_iff] at hsize
  have hrefused := exec_of_not_trapBitsZero (predOfField (w.extractLsb' 10 3)) (vectorOfField (w.extractLsb' 5 5))
    (vectorOfField (w.extractLsb' 0 5)) hsve2 hsve hsize htrap
  rwa [← instrOfFields, encode_instrOfFields_of_fixed hfixed] at hrefused

/-- Step (9) of R122: FMAXNMP with the fields of the word. -/
theorem exec_instrOfFields_of_ready {s : State} {w : Word} (hready : s.ready) (hsize : w.extractLsb' 22 2 ≠ 0#2) :
    exec (instrOfFields w) s = .next (fmaxnmpOperation
      (if w.extractLsb' 22 2 = 1#2 then .half else if w.extractLsb' 22 2 = 2#2 then .single else .double)
      (Fin.ofNat 16 (w.extractLsb' 10 3).toNat) (Fin.ofNat 32 (w.extractLsb' 5 5).toNat)
      (Fin.ofNat 32 (w.extractLsb' 0 5).toNat) s) := by
  rw [instrOfFields, exec_of_ready _ _ _ _ _ s hready (Size.format_ofBits _ hsize), predOfField_eq_ofNat,
    vectorOfField_eq_ofNat, vectorOfField_eq_ofNat]

/-- The launch premise L3 by the two slices of FPCR that R121 names (10_state.md R34). -/
theorem trapBitsZero_iff_slices (s : State) :
    trapBitsZero s.fpcr ↔ ¬ (s.fpcr.getLsbD 15 = true ∨ s.fpcr.extractLsb' 8 5 ≠ 0#5) := by
  rw [trapBitsZero_iff, ← trapEnabled_readFpcr, Bool.not_eq_true]

/-- Settles O13: each test in turn, the tests before it having passed. -/
theorem stepFollowsThePriorityOrder : Obligations.StepFollowsThePriorityOrder := by
  intro s hfault
  refine ⟨fun hhalt => ?_, fun hhalt => ?_⟩
  · rw [step_at_haltAddr hfault hhalt]
    exact ⟨nofun, nofun, nofun, rfl, hhalt, hfault⟩
  split
  case isTrue hmis => exact step_of_fetch_error hfault hhalt (fetch_of_misaligned hmis)
  case isFalse halign =>
  rw [not_not] at halign
  split
  case h_1 hnone => exact step_of_fetch_error hfault hhalt (fetch_of_undefined halign hnone)
  case h_2 w hread =>
  have hfetch := fetch_eq_ok.2 ⟨halign, hread⟩
  split
  case isTrue hfixed => exact wordsOutsideTheEncodingAreRefused s w hfault hhalt hfetch hfixed
  case isFalse hfixed =>
  rw [not_not] at hfixed
  rw [step_of_fixed hfault hhalt hfetch hfixed]
  split
  case isTrue hsve2 => exact exec_instrOfFields_of_undefined hfixed (.inl hsve2)
  case isFalse hsve2 =>
  rw [Bool.not_eq_false] at hsve2
  split
  case isTrue hsize => exact exec_instrOfFields_of_undefined hfixed (.inr hsize)
  case isFalse hsize =>
  split
  case isTrue hsve => exact exec_instrOfFields_of_sve_disabled hsve2 hsize hsve
  case isFalse hsve =>
  rw [Bool.not_eq_false] at hsve
  split
  case isTrue htrap =>
    exact exec_instrOfFields_of_not_trapBitsZero hfixed hsve2 hsize hsve fun hzero =>
      (trapBitsZero_iff_slices s).1 hzero htrap
  case isFalse htrap =>
    exact exec_instrOfFields_of_ready ⟨hsve2, hsve, (trapBitsZero_iff_slices s).2 htrap⟩ hsize

/-- A step goes on exactly when no stop is recorded, the run has not ended, and the fetched word's instruction goes on. -/
theorem step_eq_next_iff {s t : State} : step s = .next t ↔
    s.fault = none ∧ s.pc ≠ s.cfg.haltAddr ∧
      ∃ w, fetch s = .ok w ∧ w &&& fixedMask = fixedMatch ∧ exec (instrOfFields w) s = .next t := by
  constructor
  · intro hstep
    obtain ⟨hfault, hhalt, w, i, hfetch, hdecode, hexec⟩ := step_next hstep
    obtain ⟨hfixed, rfl⟩ := decode_eq_ok_iff.1 hdecode
    exact ⟨hfault, hhalt, w, hfetch, hfixed, hexec⟩
  · rintro ⟨hfault, hhalt, w, hfetch, hfixed, hexec⟩
    rw [step_of_fixed hfault hhalt hfetch hfixed, hexec]

/-- What the fields of a word spell goes on exactly in a ready state and with a size field other than 00 (40_fmaxnmp.md R90). -/
theorem exists_exec_instrOfFields_eq_next_iff {s : State} {w : Word} :
    (∃ t, exec (instrOfFields w) s = .next t) ↔ w.extractLsb' 22 2 ≠ 0#2 ∧ s.ready := by
  constructor
  · rintro ⟨t, hexec⟩
    obtain ⟨hready, f, hf, _⟩ := exec_fmaxnmp_eq_next_iff.1 hexec
    refine ⟨fun hsize => ?_, hready⟩
    rw [(Size.format_ofBits_eq_none_iff _).2 hsize] at hf
    cases hf
  · rintro ⟨hsize, hready⟩
    exact ⟨_, exec_instrOfFields_of_ready hready hsize⟩

/-- Settles O16: the fetch gives the alignment and the word, its execution the legal size and the ready state. -/
theorem stepGoesOnExactlyOnAnExecutableFmaxnmp : Obligations.StepGoesOnExactlyOnAnExecutableFmaxnmp := by
  intro s
  constructor
  · rintro ⟨t, hstep⟩
    obtain ⟨hfault, hhalt, w, hfetch, hfixed, hexec⟩ := step_eq_next_iff.1 hstep
    obtain ⟨halign, hread⟩ := fetch_eq_ok.1 hfetch
    obtain ⟨hsize, hready⟩ := exists_exec_instrOfFields_eq_next_iff.1 ⟨t, hexec⟩
    exact ⟨hfault, hhalt, halign, ⟨w, hread, hfixed, hsize⟩, hready⟩
  · rintro ⟨hfault, hhalt, halign, ⟨w, hread, hfixed, hsize⟩, hready⟩
    obtain ⟨t, hexec⟩ := exists_exec_instrOfFields_eq_next_iff.2 ⟨hsize, hready⟩
    exact ⟨t, step_eq_next_iff.2 ⟨hfault, hhalt, w, fetch_eq_ok.2 ⟨halign, hread⟩, hfixed, hexec⟩⟩

end Sys2Proof.Machine
end

section
/-! PROOF. The decoded instruction within a step (70_reset_and_hazards.md R139). -/

namespace Sys2Proof.Machine

/-- Settles O12: past the stop record, the end of the run and the fetch, a step branches on the decoder's answer alone. -/
theorem stepRunsTheDecodedInstruction : Obligations.StepRunsTheDecodedInstruction := by
  intro s w i hfault hhalt hfetch hdecode
  rw [step_of_fetch hfault hhalt hfetch, hdecode]

end Sys2Proof.Machine
end

section
/-! PROOF. Runs: what they leave unchanged, and when they end (70_reset_and_hazards.md R143, R145). -/

namespace Sys2Proof.Machine

/-- A run goes on past its first step exactly when that step does and the rest of the run does from there. -/
theorem run_succ_eq_next_iff (M : Host.Core) (j : Nat) (s t : M.State) :
    M.run (j + 1) s = .next t ↔ ∃ u, M.step s = .next u ∧ M.run j u = .next t := by
  rw [Host.Core.run]
  cases M.step s <;> simp

/-- The last step of a run starts where the run without it stands. -/
theorem exists_last_step_of_run (M : Host.Core) {j : Nat} {s t : M.State} (h : M.run (j + 1) s = .next t) :
    ∃ u, M.run j s = .next u ∧ M.step u = .next t := by
  induction j generalizing s with
  | zero =>
    obtain ⟨u, hstep, hrun⟩ := (run_succ_eq_next_iff M 0 s t).1 h
    cases hrun
    exact ⟨s, rfl, hstep⟩
  | succ j ih =>
    obtain ⟨u, hfirst, hrest⟩ := (run_succ_eq_next_iff M (j + 1) s t).1 h
    obtain ⟨v, hrun, hlast⟩ := ih hrest
    exact ⟨v, (run_succ_eq_next_iff M j s v).2 ⟨u, hfirst, hrun⟩, hlast⟩

/-- What `j` steps from `s` to `t` keep, whatever the words were: the pc is `j` words on, and of the other fields only
Z and FPSR can differ (10_state.md R39, R43). -/
structure State.StepsOn (s : State) (j : Nat) (t : State) : Prop where
  pc : t.pc = s.pc + BitVec.ofNat 64 (4 * j)
  cfg : t.cfg = s.cfg
  p : t.p = s.p
  fpcr : t.fpcr = s.fpcr
  prog : t.prog = s.prog
  fault : t.fault = s.fault

/-- The word after the `j`th from an address is the next one from it, mod 2^64 (10_state.md R39). -/
theorem add_wordOffset_succ (a : Addr) (j : Nat) :
    a + BitVec.ofNat 64 (4 * j) + 4#64 = a + BitVec.ofNat 64 (4 * (j + 1)) := by
  rw [BitVec.add_assoc, Nat.mul_succ, BitVec.ofNat_add]

/-- A step on from `u` adds a word and keeps the rest (10_state.md R43). -/
theorem State.StepsOn.step {s t u : State} {j : Nat} (h : s.StepsOn j u) (hstep : step u = .next t) : s.StepsOn (j + 1) t := by
  obtain ⟨hcfg, hp, hfpcr, hprog, hfault, hpc⟩ := stepChangesOnlyZFpsrAndPc u t hstep
  obtain ⟨hfaultBefore, _⟩ := step_next hstep
  exact {
    pc := by rw [hpc, h.pc, add_wordOffset_succ]
    cfg := hcfg.trans h.cfg
    p := hp.trans h.p
    fpcr := hfpcr.trans h.fpcr
    prog := hprog.trans h.prog
    fault := (hfault.trans hfaultBefore.symm).trans h.fault }

/-- What every step leaves unchanged, a run that goes on leaves unchanged, and each of its steps is one word. -/
theorem stepsOn_of_run {s t : State} {j : Nat} (h : Sys2Proof.core.run j s = .next t) : s.StepsOn j t := by
  induction j generalizing t with
  | zero =>
    cases h
    exact ⟨(BitVec.add_zero _).symm, rfl, rfl, rfl, rfl, rfl⟩
  | succ j ih =>
    obtain ⟨u, hrun, hlast⟩ := exists_last_step_of_run Sys2Proof.core h
    exact (ih hrun).step hlast

/-- A run whose halt_addr is `n` words ahead does not go on past it (70_reset_and_hazards.md R143). -/
theorem run_past_haltAddr_ne_next {s : State} {n : Nat} (h : s.pc + BitVec.ofNat 64 (4 * n) = s.cfg.haltAddr) (t : State) :
    Sys2Proof.core.run (n + 1) s ≠ .next t := by
  intro hrun
  obtain ⟨u, hreach, hlast⟩ := exists_last_step_of_run Sys2Proof.core hrun
  have hon : s.StepsOn n u := stepsOn_of_run hreach
  obtain ⟨_, hhalt, _⟩ := step_next hlast
  exact hhalt (by rw [hon.pc, hon.cfg, h])

/-- Between aligned addresses lie fewer than 2^62 words, counted upwards mod 2^64. -/
theorem exists_wordOffset {a b : Addr} (ha : a.toNat % 4 = 0) (hb : b.toNat % 4 = 0) :
    ∃ n < 2 ^ 62, a + BitVec.ofNat 64 (4 * n) = b := by
  refine ⟨(b - a).toNat / 4, by omega, BitVec.eq_of_toNat_eq ?_⟩
  rw [BitVec.toNat_add, BitVec.toNat_ofNat, BitVec.toNat_sub]
  omega

/-- Settles O18: every step goes one word on, so the run reaches halt_addr, fewer than 2^62 words ahead, or stops before. -/
theorem alignedRunStopsWithin2Pow62Steps : Obligations.AlignedRunStopsWithin2Pow62Steps := by
  intro s hpc hhalt
  obtain ⟨n, hn, hahead⟩ := exists_wordOffset hpc hhalt
  exact ⟨n + 1, hn, run_past_haltAddr_ne_next hahead⟩

/-- A launched program of FMAXNMP words of legal sizes runs on up to its end: each of its words is there to be fetched, and before
the end the pc is not at halt_addr (70_reset_and_hazards.md R133, R145). -/
theorem State.launchable_run_goes_on {s : State} {k : Nat} (hlaunch : s.launchable k)
    (hwords : ∀ j < k, ∀ w, readWord s.prog (s.pc + BitVec.ofNat 64 (4 * j)) = some w →
      w &&& 0xFF3FE000#32 = 0x64148000#32 ∧ w.extractLsb' 22 2 ≠ 0#2) {j : Nat} (hj : j ≤ k) :
    ∃ t : State, Sys2Proof.core.run j s = .next t := by
  obtain ⟨hready, hprogram, hfault⟩ := hlaunch
  induction j with
  | zero => exact ⟨s, rfl⟩
  | succ j ih =>
    obtain ⟨u, hrun⟩ := ih (Nat.le_of_succ_le hj)
    have hon : s.StepsOn j u := stepsOn_of_run hrun
    obtain ⟨w, hread⟩ := State.holdsProgram_readWord hprogram hj
    obtain ⟨hfixed, hsize⟩ := hwords j hj w hread
    have hhalt : u.pc ≠ u.cfg.haltAddr := by
      rw [hon.pc, hon.cfg, Ne, State.holdsProgram_haltAddr hprogram (Nat.le_of_succ_le hj)]
      exact Nat.ne_of_lt hj
    have halign : u.pc.toNat % 4 = 0 := by rw [hon.pc]; exact State.holdsProgram_aligned hprogram j
    have hready' : u.ready := by rwa [State.ready, hon.cfg, hon.fpcr]
    obtain ⟨t, hstep⟩ := (stepGoesOnExactlyOnAnExecutableFmaxnmp u).2
      ⟨hon.fault.trans hfault, hhalt, halign, ⟨w, by rw [hon.prog, hon.pc, hread], hfixed, hsize⟩, hready'⟩
    exact ⟨t, (run_succ_of_run Sys2Proof.core j s u hrun).trans hstep⟩

/-- Settles O51: the program runs on up to its end, each step one word on, and halt_addr is the end alone. -/
theorem launchedProgramTakesOneStepForEachWord : Obligations.LaunchedProgramTakesOneStepForEachWord := by
  intro s k hlaunch hwords j hj
  obtain ⟨t, hrun⟩ := State.launchable_run_goes_on hlaunch hwords hj
  have hon : s.StepsOn j t := stepsOn_of_run hrun
  obtain ⟨_, hprogram, hfault⟩ := hlaunch
  have hfault' : t.fault = none := hon.fault.trans hfault
  refine ⟨t, hrun, hon.pc, hon.cfg, hon.p, hon.fpcr, hon.prog, hfault', ?_⟩
  rw [State.isFinal, and_iff_left hfault', hon.pc, hon.cfg]
  exact State.holdsProgram_haltAddr hprogram hj

end Sys2Proof.Machine
end

section
/-! PROOF. Where a run ends (70_reset_and_hazards.md R143), and the stops a step records (60_exceptions.md R119). -/

namespace Sys2Proof.Machine

/-- No instruction ends a run: FMAXNMP answers a next state, a fault, or NotInSpec (40_fmaxnmp.md R90). -/
theorem exec_ne_ended (i : Instr) (s : State) (pc : Addr) : exec i s ≠ .refused (.ended pc) := by
  obtain ⟨size, pg, zm, zdn⟩ := i
  rw [exec]
  rcases execFmaxnmp_cases size pg zm zdn s with ⟨_, h⟩ | ⟨_, _, _, ⟨_, h⟩ | ⟨_, _, h⟩ | ⟨_, _, h⟩⟩
  all_goals
    rw [h]
    exact nofun

/-- Away from halt_addr neither the fetch, nor the decoder, nor the instruction ends the run (70_reset_and_hazards.md R143). -/
theorem step_ne_ended {s : State} (hfault : s.fault = none) (hhalt : s.pc ≠ s.cfg.haltAddr) (pc : Addr) :
    step s ≠ .refused (.ended pc) := by
  cases hfetch : fetch s with
  | error f =>
    rw [step_of_fetch_error hfault hhalt hfetch]
    exact nofun
  | ok w =>
    rw [step_of_fetch hfault hhalt hfetch]
    cases decode w with
    | error _ => exact nofun
    | ok i => exact exec_ne_ended i s pc

/-- Settles O14: halt_addr is tested before the fetch and is the only test answered as `ended`, of which `State.after` records
nothing. -/
theorem runEndsExactlyAtHaltAddress : Obligations.RunEndsExactlyAtHaltAddress := by
  intro s hfault
  refine ⟨⟨fun hended => ?_, step_at_haltAddr hfault⟩, fun hhalt => ⟨⟨hhalt, hfault⟩, ?_⟩⟩
  · by_contra hhalt
    exact step_ne_ended hfault hhalt s.pc hended
  · rw [step_at_haltAddr hfault hhalt, State.after_ended]

/-- A stop that a state records is answered by its next step and kept by it, and the state is not final (60_exceptions.md R119;
log 6). -/
theorem stop_is_for_good {t : State} {stop : Stop} (h : t.fault = some stop) :
    step t = stopped stop ∧ stepRecorded t = t ∧ ¬ t.isFinal := by
  obtain ⟨_, hkept, hfinal⟩ := noStepFollowsAStop.1 t (by simp [h])
  exact ⟨step_of_stopped h, hkept, hfinal⟩

/-- Settles O15: `State.after` records the stop alone (O50), and a recorded stop is for good. -/
theorem stopsArePreciseAndForGood : Obligations.StopsArePreciseAndForGood := by
  obtain ⟨_, hrecordFault, hrecordRefusal⟩ := noStepFollowsAStop
  intro s hfault
  refine ⟨fun f hstep => ?_, fun pc w hstep => ?_⟩
  · have hrecord := hrecordFault s f hfault hstep
    exact ⟨hrecord, stop_is_for_good (congrArg State.fault hrecord)⟩
  · have hrecord := hrecordRefusal s pc w hfault hstep
    exact ⟨hrecord, stop_is_for_good (congrArg State.fault hrecord)⟩

end Sys2Proof.Machine
end

section
/-! PROOF. The host's load of a word (log 9): the bytes it places are read back, no other byte changes, and the step after it runs
the word's instruction. -/

namespace Sys2Proof.Machine

/-- The word that the four bytes of a word make is that word (20_memory.md R48). -/
theorem wordOfBytes_slices (w : Word) :
    wordOfBytes (w.extractLsb' 0 8) (w.extractLsb' 8 8) (w.extractLsb' 16 8) (w.extractLsb' 24 8) = w := by
  refine BitVec.eq_of_getLsbD_eq fun j hj => ?_
  simp only [getLsbD_wordOfBytes, BitVec.getLsbD_extractLsb']
  grind

/-- The address after `a` and then `k` more is `k + 1` past `a`, mod 2^64 (20_memory.md R50). -/
theorem add_one_add_ofNat (a : Addr) (k : Nat) : a + 1 + BitVec.ofNat 64 k = a + BitVec.ofNat 64 (k + 1) := by
  rw [BitVec.add_assoc, Nat.add_comm k 1, BitVec.ofNat_add]
  rfl

/-- Placed bytes leave every byte at another address as it was (00_scope.md R21). -/
theorem readByte_writeBytes_other {m : Memory} {a : Addr} {bs : List Byte} {x : Nat}
    (h : ∀ k < bs.length, x ≠ (a + BitVec.ofNat 64 k).toNat) : readByte (writeBytes m a bs) x = readByte m x := by
  induction bs generalizing m a with
  | nil => rfl
  | cons b bs ih =>
    have hfirst : x ≠ a.toNat := by simpa using h 0 (Nat.succ_pos _)
    have hrest : ∀ k < bs.length, x ≠ (a + 1 + BitVec.ofNat 64 k).toNat := fun k hk => by
      rw [add_one_add_ofNat]
      exact h (k + 1) (Nat.succ_lt_succ hk)
    rw [writeBytes, ih hrest, readByte_writeByte, if_neg hfirst]

/-- Placed bytes that do not come round to their own start are read back (00_scope.md R21). -/
theorem readBytes_writeBytes_same (m : Memory) (a : Addr) {bs : List Byte} (hlength : bs.length ≤ 2 ^ 64) :
    readBytes (writeBytes m a bs) a bs.length = some bs := by
  induction bs generalizing m a with
  | nil => rfl
  | cons b bs ih =>
    rw [List.length_cons] at hlength
    have hfirst : readByte (writeBytes (writeByte m a.toNat b) (a + 1) bs) a.toNat = some b := by
      rw [readByte_writeBytes_other, readByte_writeByte, if_pos rfl]
      intro k hk
      rw [add_one_add_ofNat, BitVec.toNat_add, BitVec.toNat_ofNat]
      omega
    rw [writeBytes, List.length_cons, readBytes, hfirst, ih _ _ (Nat.le_of_succ_le hlength)]

/-- A placed word is read back (20_memory.md R48). -/
theorem readWord_writeBytes_bytesOfWord (m : Memory) (a : Addr) (w : Word) :
    readWord (writeBytes m a (bytesOfWord w)) a = some w := by
  have hbytes : readBytes (writeBytes m a (bytesOfWord w)) a 4 = some (bytesOfWord w) :=
    readBytes_writeBytes_same m a (by simp [bytesOfWord])
  rw [readWord, hbytes]
  exact congrArg some (wordOfBytes_slices w)

/-- The load brings the pc to a multiple of 4 (log 9). -/
theorem placeWord_pc_aligned (s : State) (w : Word) : (s.placeWord w).pc.toNat % 4 = 0 := by
  rw [State.placeWord_pc, BitVec.toNat_and, Nat.and_mod_two_pow (n := 2)]
  exact Nat.and_zero _

/-- The load leaves halt_addr elsewhere than at the pc (log 9). -/
theorem placeWord_pc_ne_haltAddr (s : State) (w : Word) : (s.placeWord w).pc ≠ (s.placeWord w).cfg.haltAddr := by
  have hcfg : (s.placeWord w).cfg.haltAddr =
      if s.cfg.haltAddr = (s.placeWord w).pc then ~~~(s.placeWord w).pc else s.cfg.haltAddr := rfl
  rw [hcfg]
  split
  case isTrue => bv_omega
  case isFalse hother => exact Ne.symm hother

/-- After the load the fetch answers the placed word (20_memory.md R50; log 9). -/
theorem fetch_placeWord (s : State) (w : Word) : fetch (s.placeWord w) = .ok w :=
  fetch_eq_ok.2 ⟨placeWord_pc_aligned s w, readWord_writeBytes_bytesOfWord _ _ w⟩

/-- The load changes the four bytes at the pc alone, which do not wrap, the pc being aligned (log 9). -/
theorem readByte_placeWord_other {s : State} {w : Word} {a : Nat} (h : ∀ k < 4, a ≠ (s.placeWord w).pc.toNat + k) :
    readByte (s.placeWord w).prog a = readByte s.prog a := by
  refine readByte_writeBytes_other (a := (s.placeWord w).pc) (bs := bytesOfWord w) fun k hk => ?_
  have hk : k < 4 := hk
  have halign := placeWord_pc_aligned s w
  have hpc := h k hk
  rw [BitVec.toNat_add, BitVec.toNat_ofNat]
  omega

/-- A whole word is placed as it is (log 9). -/
theorem withFetchWord_toNat (s : State) (w : Word) : s.withFetchWord 32 w.toNat = s.placeWord w := by
  rw [State.withFetchWord, Nat.mod_eq_of_lt w.isLt, BitVec.ofNat_toNat, BitVec.setWidth_eq]

/-- Settles O19: after the load no stop is recorded, the pc is not at halt_addr, and the fetch answers the placed word. -/
theorem placedWordIsTheNextInstruction : Obligations.PlacedWordIsTheNextInstruction := by
  intro s w i hdecode
  rw [withFetchWord_toNat]
  exact ⟨stepRunsTheDecodedInstruction _ w i rfl (placeWord_pc_ne_haltAddr s w) (fetch_placeWord s w) hdecode,
    fun _ => readByte_placeWord_other⟩

end Sys2Proof.Machine
end

section
/-! PROOF. What Part A fixes (41_fpmaxnum_numerics.md R92 to R94), whatever the free values are (log 4). -/

namespace Sys2Proof.Machine

/-- With FPCR zero no format flushes (R97). -/
theorem flushControl_zero (f : FpFormat) : flushControl f 0#32 = false := by
  cases f <;> rfl

/-- A NaN is no denormal (R97). -/
theorem isDenormal_of_isNaN {f : FpFormat} {x : BitVec f.width} (h : isNaN f x = true) : isDenormal f x = false := by
  rw [Bool.eq_false_iff, Ne, isDenormal_iff_fields, ((isNaN_iff_fields f x).1 h).1]
  exact fun ⟨hzero, _⟩ => allOnes_expBits_ne_zero f hzero

/-- A signalling NaN, or two quiet ones: the result is a quiet NaN, whatever the free bits are (R93). -/
theorem isQNaN_fpMaxNumPartA {f : FpFormat} {op1 op2 : BitVec f.width} (fpcr : Word)
    (h : (isSNaN f op1 = true ∨ isSNaN f op2 = true) ∨ (isQNaN f op1 = true ∧ isQNaN f op2 = true)) :
    isQNaN f (fpMaxNumPartA f op1 op2 fpcr).1 = true := by
  simp only [← Bool.or_eq_true, ← Bool.and_eq_true] at h
  simp only [fpMaxNumPartA, if_pos h]
  exact isQNaN_fpQuiet f _ (fpPack_fields f _ _ _).2.1

/-- A signalling NaN signals Invalid Operation, whatever the free flag is (R93). -/
theorem ioc_fpMaxNumPartA {f : FpFormat} {op1 op2 : BitVec f.width} (fpcr : Word)
    (h : isSNaN f op1 = true ∨ isSNaN f op2 = true) : (fpMaxNumPartA f op1 op2 fpcr).2.ioc = true := by
  rw [← Bool.or_eq_true] at h
  simp only [fpMaxNumPartA, h, Bool.true_or]

/-- No signalling NaN, one number at least and no denormal: the reference's result under FPCR zero, a zero's sign being free
(R92, R94). -/
theorem fpMaxNumPartA_fst_of_defined {f : FpFormat} {op1 op2 : BitVec f.width} (fpcr : Word)
    (hs1 : isSNaN f op1 = false) (hs2 : isSNaN f op2 = false) (hqq : ¬ (isQNaN f op1 = true ∧ isQNaN f op2 = true))
    (hd1 : isDenormal f op1 = false) (hd2 : isDenormal f op2 = false) :
    (fpMaxNumPartA f op1 op2 fpcr).1 =
      if fpClass f (fpMaxNumRef f op1 op2 0#32).1 false = .zero then
        fpZero f (fpSign f (Config.freeMaxBits f.width op1 op2 fpcr))
      else (fpMaxNumRef f op1 op2 0#32).1 := by
  rw [← Bool.and_eq_true] at hqq
  simp only [fpMaxNumPartA, hs1, hs2, hqq, hd1, hd2, Bool.or_self, Bool.false_or, Bool.false_eq_true, if_false]

/-- A number whose zero has been given another sign keeps its value (R99). -/
theorem same_value_of_resigned_zero {f : FpFormat} {x y : BitVec f.width} {s : Bool} (hnan : isNaN f x = false)
    (hy : y = if fpClass f x false = .zero then fpZero f s else x) :
    fpValue f false y = fpValue f false x ∧ isNaN f y = false := by
  split_ifs at hy with hzero
  · rw [hy, fpValue_of_zero (fpClass_fpZero f s false), fpValue_of_zero hzero]
    exact ⟨rfl, isNaN_fpZero f s⟩
  · rw [hy]
    exact ⟨rfl, hnan⟩

/-- Two numbers, none denormal: a number of the larger value (R92). -/
theorem fpMaxNumPartA_of_numbers {f : FpFormat} {op1 op2 : BitVec f.width} (fpcr : Word) (h1 : isNaN f op1 = false)
    (h2 : isNaN f op2 = false) (hd1 : isDenormal f op1 = false) (hd2 : isDenormal f op2 = false) :
    fpValue f false (fpMaxNumPartA f op1 op2 fpcr).1 = max (fpValue f false op1) (fpValue f false op2) ∧
      isNaN f (fpMaxNumPartA f op1 op2 fpcr).1 = false := by
  obtain ⟨hs1, hq1⟩ := kinds_of_isNaN_eq_false h1
  obtain ⟨hs2, _⟩ := kinds_of_isNaN_eq_false h2
  have hlarger := fpMaxNumRef_fst_of_numbers 0#32 h1 h2
  rw [flushControl_zero] at hlarger
  have hresult := fpMaxNumPartA_fst_of_defined fpcr hs1 hs2 (by simp [hq1]) hd1 hd2
  rw [hlarger] at hresult
  rw [← fpValue_maxNumeric false h1 h2]
  exact same_value_of_resigned_zero (isNaN_maxNumeric false h1 h2) hresult

/-- A quiet NaN and a number that is no denormal, in either position: a number of that number's value (R92, R94). -/
theorem fpMaxNumPartA_of_one_quietNaN {f : FpFormat} {q x : BitVec f.width} (fpcr : Word) (hq : isQNaN f q = true)
    (hx : isNaN f x = false) (hd : isDenormal f x = false) :
    (fpValue f false (fpMaxNumPartA f q x fpcr).1 = fpValue f false x ∧ isNaN f (fpMaxNumPartA f q x fpcr).1 = false) ∧
    (fpValue f false (fpMaxNumPartA f x q fpcr).1 = fpValue f false x ∧ isNaN f (fpMaxNumPartA f x q fpcr).1 = false) := by
  obtain ⟨hsx, hqx⟩ := kinds_of_isNaN_eq_false hx
  have hsq := isSNaN_of_isQNaN f q hq
  have hdq := isDenormal_of_isNaN ((isNaN_iff f q).2 (.inr hq))
  obtain ⟨hleft, hright⟩ := oneQuietNaNGivesTheNumber f q x 0#32 hq hx
  rw [if_neg (by simp [hd])] at hleft hright
  have hresultLeft := fpMaxNumPartA_fst_of_defined fpcr hsq hsx (by simp [hqx]) hdq hd
  have hresultRight := fpMaxNumPartA_fst_of_defined fpcr hsx hsq (by simp [hqx]) hd hdq
  rw [hleft] at hresultLeft
  rw [hright] at hresultRight
  exact ⟨same_value_of_resigned_zero hx hresultLeft, same_value_of_resigned_zero hx hresultRight⟩

/-- Settles O46: two numbers, a quiet NaN on either side of a number, a signalling NaN, two quiet NaNs. -/
theorem partAFixesNumbersAndNaNs : Obligations.PartAFixesNumbersAndNaNs := by
  intro f op1 op2 fpcr r
  exact ⟨fpMaxNumPartA_of_numbers fpcr,
    fun hq hx hd => (fpMaxNumPartA_of_one_quietNaN fpcr hq hx hd).1,
    fun hq hx hd => (fpMaxNumPartA_of_one_quietNaN fpcr hq hx hd).2,
    fun hs => ⟨isQNaN_fpMaxNumPartA fpcr (.inl hs), ioc_fpMaxNumPartA fpcr hs⟩,
    fun hq1 hq2 => isQNaN_fpMaxNumPartA fpcr (.inr ⟨hq1, hq2⟩)⟩

end Sys2Proof.Machine
end

section
/-! PROOF. The reset state: the invariant, the launch premises it meets, and its first step (logs 1, 2, 5). -/

namespace Sys2Proof.Machine

/-- Every Z register is zero at reset (log 1). -/
theorem reset_getElem_z (n : ZReg) : State.reset.z[n] = 0#2048 := by
  simp [State.reset, State.launch]

/-- Every P register is zero at reset (log 1). -/
theorem reset_getElem_p (n : PReg) : State.reset.p[n] = 0#256 := by
  simp [State.reset, State.launch]

/-- Settles O48: the empty prog is canonical, and zeros have no bit above a length or in a reserved place. -/
theorem resetMeetsTheInvariant : Obligations.ResetMeetsTheInvariant where
  progWf := reset_prog_wf
  zClipped n := by
    rw [reset_getElem_z, BitVec.toNat_zero]
    exact Nat.two_pow_pos _
  pClipped n := by
    rw [reset_getElem_p, BitVec.toNat_zero]
    exact Nat.two_pow_pos _
  fpcrReserved := by decide
  fpsrReserved := by decide
  pcAligned := by decide

/-- An empty prog holds no program: the first byte of its first word is undefined (70_reset_and_hazards.md R133, L4). -/
theorem not_holdsProgram_of_prog_nil {s : State} (h : s.prog = []) (k : Nat) : ¬ s.holdsProgram k := by
  rintro ⟨_, hpos, _, hbytes, _⟩
  refine hbytes 0 (by omega) ?_
  rw [h, readByte]

/-- Settles O49: prog is empty at reset, so no program is held and the fetch at the aligned pc finds no word. -/
theorem resetIsReadyWithoutAProgram : Obligations.ResetIsReadyWithoutAProgram := by
  refine ⟨by decide, by decide, rfl, not_holdsProgram_of_prog_nil rfl, ?_⟩
  exact step_of_fetch_error rfl (by decide) (fetch_of_undefined (by decide) rfl)

end Sys2Proof.Machine
end
